-- ==== Sys2Proof/Word.lean ====
section
/-! DEFINITION. The word types of VMCORE (spec/00_scope.md R3): what the manual treats as bits. -/

namespace Sys2Proof

/-- A byte of Memory, 8 bits (R3 `BYTE`; PRESUMED, log entry 9: the spec takes the 8 from general knowledge, G1). -/
abbrev Byte := BitVec 8

/-- A register, a break-line or an operand field, 16 bits unsigned (R3 `REG_WIDTH`, `BRK_WIDTH`, `OPERAND_WIDTH`). -/
abbrev Word := BitVec 16

/-- The Execution Loop's position, 17 bits (R3 `CURSOR_WIDTH`, R26). -/
abbrev Cursor := BitVec 17

/-- The last instruction size, 2 bits (R26). -/
abbrev Size := BitVec 2

end Sys2Proof
end

