-- ==== Sys2Proof/Syntax.lean ====
section
/-! DEFINITION. The instruction set: one constructor per row of spec/opcode_table.json (R83). -/

namespace Sys2Proof

/-- The decoded instruction of R29: the opcode, as a constructor, and the operand fields its format has, each an
unsigned 16-bit value. `mov` carries operand 2 although no instruction uses it (R146; U11 allows carrying it; log
entry 6). -/
inductive Instr where
  /-- `0x01`, "data-move (into accumulator)": R141. -/
  | mov (operand1 operand2 : Word)
  /-- `0x02`, "no-op": R142. -/
  | nop
  /-- `0x03`, "halt": R143. -/
  | hlt
  deriving DecidableEq, Repr

end Sys2Proof
end

