-- ==== Sys2Proof/WellFormed.lean ====
section
/-! DEFINITION. Which instructions have an encoding (spec/30_encoding.md R82, R90). -/

namespace Sys2Proof

/-- An operand field is assembled from ONE byte by zero extension, so only 0 to 255 can be encoded (R82, R90). -/
def encodableOperand (v : Word) : Bool := decide (v.toNat < 256)

/-- Both operand fields of a data-move are encodable; the other two instructions have no field to check. -/
def Instr.wf : Instr → Bool
  | .mov operand1 operand2 => encodableOperand operand1 && encodableOperand operand2
  | .nop => true
  | .hlt => true

/-- The instruction has an encoding. -/
abbrev WellFormed (i : Instr) : Prop := i.wf = true

end Sys2Proof
end

