-- ==== Sys2Proof/Decode.lean ====
section
/-! DEFINITION. The Opcode Table, the Instruction Decoder (spec/40_opcode_table_and_decoder.md) and an encoder written
from the same layout (spec/30_encoding.md R81). The Decoder takes its bytes through a checked read of one byte, which
answers nothing where the read raises a segmentation violation: it is total on any bytes and says by name which check
failed. -/

namespace Sys2Proof

/-- The causes S1 to S6 of a segmentation violation (R191). They name the check that failed; the machine records none
of them (R196), so no state holds one (log entry 21). -/
inductive SegvCause where
  /-- S1, the loop-level check: `cursor > BRK` (R163). -/
  | cursorBeyondBreak
  /-- S2, the opcode byte lies outside the code region (R120). -/
  | fetchOutside
  /-- S3, the Opcode Table gives a size outside 1 to 3 (R118). -/
  | badSize
  /-- S4, the operand-1 byte lies outside the code region (R116, R117). -/
  | operand1Outside
  /-- S5, the operand-2 byte lies outside the code region (R117). -/
  | operand2Outside
  /-- S6, the opcode has a size and no Executor case (R144); unreachable. -/
  | noExecutorCase
  deriving DecidableEq, Repr

/-- What the Decoder delivers: `(op, sz, a1, a2)` of R114. -/
structure Decoded where
  opcode : Byte
  size : Nat
  a1 : Word
  a2 : Word
  deriving DecidableEq, Repr

/-- `zext_16`: the byte becomes bits 7:0, bits 15:8 are 0 (R82, 00_scope section 5). -/
def zext16 (b : Byte) : Word := b.setWidth 16

/-- Bits 7:0 of an operand field: the byte that supplies it (R82). -/
def lowByte (w : Word) : Byte := w.setWidth 8

/-- `sizeOf`, the Opcode Table (R110, R111): a constant of the hardware (R28, R112). -/
def opcodeSize (op : Byte) : Nat :=
  if op = 0x01#8 then 3 else if op = 0x02#8 then 1 else if op = 0x03#8 then 1 else 0

/-- Operand extraction by size: R115 (size 1), R116 (size 2, which no opcode has), R117 (size 3: one byte at `p + 1`,
one at `p + 3`, none at `p + 2`), R118 (any other size). Operand 2 is ONE byte (decision D5 of the spec, log entry 7);
an absent operand is 0 (decision D6, log entry 20). -/
def operandFields (read : Nat → Option Byte) (p : Nat) (sz : Nat) : Except SegvCause (Word × Word) :=
  match sz with
  | 1 => .ok (0, 0)
  | 2 =>
    match read (p + 1) with
    | none => .error .operand1Outside
    | some b1 => .ok (zext16 b1, 0)
  | 3 =>
    match read (p + 1) with
    | none => .error .operand1Outside
    | some b1 =>
      match read (p + 3) with
      | none => .error .operand2Outside
      | some b2 => .ok (zext16 b1, zext16 b2)
  | _ => .error .badSize

/-- `Decode` at byte position `p` (R122), with the checks in the order of R121. -/
def decodeAt (read : Nat → Option Byte) (p : Nat) : Except SegvCause Decoded :=
  match read p with
  | none => .error .fetchOutside
  | some op =>
    match operandFields read p (opcodeSize op) with
    | .error c => .error c
    | .ok (a1, a2) => .ok { opcode := op, size := opcodeSize op, a1 := a1, a2 := a2 }

/-- The Executor's dispatch on the opcode byte alone (R140); nothing where no case exists (R144). -/
def Decoded.toInstr (d : Decoded) : Option Instr :=
  if d.opcode = 0x01#8 then some (.mov d.a1 d.a2)
  else if d.opcode = 0x02#8 then some .nop
  else if d.opcode = 0x03#8 then some .hlt
  else none

/-- The instruction at byte position `p` and its Opcode Table size, or the cause of the segmentation violation. -/
def decodeInstr (read : Nat → Option Byte) (p : Nat) : Except SegvCause (Instr × Nat) :=
  match decodeAt read p with
  | .error c => .error c
  | .ok d =>
    match d.toInstr with
    | none => .error .noExecutorCase
    | some i => .ok (i, d.size)

/-- The Decoder on a list of bytes: a byte beyond the list is a byte outside the code region. -/
def decodeBytes (bytes : List Byte) : Except SegvCause (Instr × Nat) :=
  decodeInstr (fun a => bytes[a]?) 0

/-! ### The encoder -/

/-- The opcode byte of an instruction (R83). -/
def Instr.opcode : Instr → Byte
  | .mov _ _ => 0x01#8
  | .nop => 0x02#8
  | .hlt => 0x03#8

/-- The bytes of the instruction's own footprint, with `reserved` at offset +2 of a data-move: any value is allowed
there (R81, R85, R89). -/
def encodeWith (reserved : Byte) : Instr → List Byte
  | .mov operand1 _ => [0x01#8, lowByte operand1, reserved]
  | .nop => [0x02#8]
  | .hlt => [0x03#8]

/-- The bytes of a well-formed instruction, the reserved byte written as `00` (R89; log entry 5). -/
def encode (i : Instr) : List Byte := encodeWith 0 i

/-- The bytes that must FOLLOW the footprint for the instruction to decode to `i`: the operand-2 byte of a data-move is
the first byte of whatever comes next (R87). -/
def lookahead : Instr → List Byte
  | .mov _ operand2 => [lowByte operand2]
  | .nop => []
  | .hlt => []

/-! ### The opcode table's numbering -/

/-- The bytes of an instruction whose bits are `w`, bit 0 the least significant of the first byte, in address order:
the 4 bytes that the longest decode reaches (offset +3), every bit from `nbits` up being 0. -/
def wordBytes (nbits w : Nat) : List Byte :=
  let v := w % 2 ^ nbits
  [BitVec.ofNat 8 v, BitVec.ofNat 8 (v / 256), BitVec.ofNat 8 (v / 65536), BitVec.ofNat 8 (v / 16777216)]

/-- The instruction the Decoder reads from an instruction whose bits are `w`. -/
def decodeTableWord (nbits w : Nat) : Option Instr :=
  match decodeBytes (wordBytes nbits w) with
  | .ok (i, _) => some i
  | .error _ => none

end Sys2Proof
end

