-- ==== Sys2Proof/Config.lean ====
section
/-! DEFINITION. The parameters of the hardware (spec/00_scope.md R3) and its one free value. -/

namespace Sys2Proof.Config

/-- `MEM_SIZE`: Memory has addresses 0 to 65534 (R3, R24; conflict C1 and decision D1 of the spec, log entry 10). -/
def memSize : Nat := 65535

/-- `MAX_INSN_SIZE`: a declared size above it is a segmentation violation (R3, R118). -/
def maxInsnSize : Nat := 3

/-- FREE VALUE. What a byte of Memory that the host has not written holds, at address `addr` of the machine's
`launch`-th creation: "unspecified", "any value (a launch parameter)" (R30, 93 U7). It has no value that a proof can
see. DESIGN CHOICE, log entries 1 and 2; safe. -/
opaque launchByte (launch addr : Nat) : Byte

end Sys2Proof.Config
end

