-- ==== Sys2Proof/Machine/State.lean ====
section
/-! DEFINITION. The state of VMCORE (spec/10_state.md), its outcomes' reasons, and the state after reset (R30). -/

namespace Sys2Proof.Machine

/-- Where the run stands (R27; the names are decision D7 of the spec). -/
inductive Phase where
  /-- The machine exists and has not been started. -/
  | idle
  /-- Inside the Execution Loop. -/
  | run
  /-- The run ended by a system halt. -/
  | halted
  /-- The run ended by a segmentation violation. -/
  | faulted
  deriving DecidableEq, Repr

/-- The condition recorded (R27, R190; decision D10 of the spec). -/
inductive Cond where
  /-- No condition yet. -/
  | none
  /-- System halt, normal termination. -/
  | sysHalt
  /-- Segmentation violation. -/
  | segv
  deriving DecidableEq, Repr

/-- The six registers of the Register File, in the source's order (R20). -/
inductive Reg where
  | acc
  | base
  | count
  | data
  | sp
  | ip
  deriving DecidableEq, Repr

/-- What a step can raise (00_scope section 5, R195). -/
inductive Raised where
  /-- `raise SegV`. -/
  | segV
  /-- `raise SysHalt`. -/
  | sysHalt
  deriving DecidableEq, Repr

/-- The bytes the host has written since reset: (address, byte) pairs, addresses strictly rising and below `MEM_SIZE`.
An address not listed has no recorded byte; reading it gives the free value `Config.launchByte` (log entry 1). -/
abbrev Memory := List Host.Cell

/-- The whole state (R20, R24 to R27); nothing else holds a value between steps. -/
structure State where
  /-- accumulator (R20, R21) -/
  acc : Word
  /-- base (R20) -/
  base : Word
  /-- count (R20) -/
  count : Word
  /-- data (R20) -/
  data : Word
  /-- stack pointer (R20) -/
  sp : Word
  /-- instruction pointer: the address of the instruction being, or just, executed (R22) -/
  ip : Word
  /-- Memory (R24) -/
  mem : Memory
  /-- the break-line `BRK` (R25) -/
  brk : Word
  /-- the loop's position in Memory, hidden (R26) -/
  cursor : Cursor
  /-- the size by which the next step advances, hidden (R26) -/
  lastSize : Size
  /-- the state of the run state machine (R27) -/
  phase : Phase
  /-- the recorded condition (R27) -/
  cond : Cond
  /-- THE MODEL'S OWN: which machine creation this is, the argument of the free value (log entry 2) -/
  launch : Nat
  deriving DecidableEq, Repr

/-- Reasons to stop with a fault: none. The one fault of the hardware, the segmentation violation, is a next state with
`phase = FAULTED` (R195), and in `RUN` a step is always enabled (R168). Log entry 4; safe. -/
inductive Fault where
  deriving DecidableEq, Repr

/-- Reasons to refuse an instruction. -/
inductive Refusal where
  /-- Raised by an arm of `exec` whose instruction has no meaning yet: no arm does. Safe. -/
  | notModelled (mnemonic : String)
  deriving DecidableEq, Repr

/-- The machine right after reset ("machine creation"), the table of R30: registers 0, entry point 0 (R31), nothing
written to Memory (log entries 1 and 14). -/
def State.reset : State :=
  { acc := 0, base := 0, count := 0, data := 0, sp := 0, ip := 0
    mem := [], brk := 0, cursor := 0, lastSize := 0
    phase := .idle, cond := .none, launch := 0 }

end Sys2Proof.Machine
end

