-- ==== Sys2Proof/Machine/Ops.lean ====
section
/-! DEFINITION. The named operations over registers and Memory (spec/10_state.md, 20_memory.md), and the one way a
condition is raised (60_exceptions.md R195). There is no return from it (R199). -/

namespace Sys2Proof.Machine

/-! ### The Register File -/

/-- `x[r]`. -/
def State.readReg (s : State) : Reg → Word
  | .acc => s.acc
  | .base => s.base
  | .count => s.count
  | .data => s.data
  | .sp => s.sp
  | .ip => s.ip

/-- `x[r] <- v`: no register is hardwired, no register is a view of another (R20). -/
def State.writeReg (s : State) (r : Reg) (v : Word) : State :=
  match r with
  | .acc => { s with acc := v }
  | .base => { s with base := v }
  | .count => { s with count := v }
  | .data => { s with data := v }
  | .sp => { s with sp := v }
  | .ip => { s with ip := v }

/-! ### Memory -/

/-- The byte recorded at address `a`, if one is. -/
def Memory.written : Memory → Nat → Option Byte
  | [], _ => none
  | (k, b) :: rest, a => if k = a then some b else Memory.written rest a

/-- Record byte `v` at address `a`, keeping the addresses strictly rising. -/
def Memory.store : Memory → Nat → Byte → Memory
  | [], a, v => [(a, v)]
  | (k, b) :: rest, a, v =>
    if a < k then (a, v) :: (k, b) :: rest
    else if a = k then (a, v) :: rest
    else (k, b) :: Memory.store rest a v

/-- Every listed address is at least `lo`, the addresses strictly rise, and all lie below `MEM_SIZE`. -/
def Memory.wfFrom (lo : Nat) : Memory → Bool
  | [] => true
  | (k, _) :: rest => decide (lo ≤ k) && decide (k < Config.memSize) && Memory.wfFrom (k + 1) rest

/-- The canonical form. An unlisted address has no recorded byte, so no entry can equal what an unlisted address
records, and two canonical lists that record the same bytes are the same list. -/
def Memory.wf (m : Memory) : Bool := Memory.wfFrom 0 m

/-- What an address that no entry lists holds: the free value of this machine creation (R30, U7; log entry 1). -/
def State.unlistedByte (s : State) (a : Nat) : Byte := Config.launchByte s.launch a

/-- `M[a]`. Callers check the bound first: `M[a]` is defined only for `a < MEM_SIZE` (00_scope section 5). -/
def State.byteAt (s : State) (a : Nat) : Byte := (s.mem.written a).getD (s.unlistedByte a)

/-- `M[a] <- b` by the host's load port: an address at or beyond `MEM_SIZE` names no byte and nothing is written
(R24, R236). No step writes Memory (R54). -/
def State.storeByte (s : State) (a : Nat) (b : Byte) : State :=
  if a < Config.memSize then { s with mem := s.mem.store a b } else s

/-! ### Conditions -/

/-- `raise`: the phase and the condition change and nothing else does (R195). -/
def State.raise (s : State) : Raised → State
  | .segV => { s with phase := .faulted, cond := .segv }
  | .sysHalt => { s with phase := .halted, cond := .sysHalt }

/-- "The Executor writes nothing in any phase other than `RUN`" (R145): `f` acts in `RUN`, elsewhere nothing happens. -/
def whileRunning (s : State) (f : State → State) : Host.Outcome State Fault Refusal :=
  if s.phase = .run then .next (f s) else .next s

end Sys2Proof.Machine
end

