-- ==== Sys2Proof/Machine/Operands.lean ====
section
/-! DEFINITION. How the machine takes bytes from Memory: the checked code read through which every opcode and operand
byte comes (spec/20_memory.md R52), the read of the data view (R53), and the Decoder applied to the machine. The operand
forms themselves are `operandFields` in Sys2Proof/Decode.lean. -/

namespace Sys2Proof.Machine

/-- `CodeRead(a)` at the natural-number address `a` (R52; log entry 15); `none` is `raise SegV`. -/
def State.codeRead (s : State) (a : Nat) : Option Byte :=
  if s.brk.toNat ≤ a then none
  else if Config.memSize ≤ a then none
  else some (s.byteAt a)

/-- `MemRead(a, n)`, the read of the data view (R53), as the list of its bytes in address order; `none` is `SegV`. No
instruction uses it (log entry 8). -/
def State.memRead (s : State) (a n : Nat) : Option (List Byte) :=
  if a + n ≤ Config.memSize then some ((List.range n).map fun k => s.byteAt (a + k)) else none

/-- The loop-level check (R163) and then the Decoder at the cursor (R164): the instruction and its size, or the first
cause of a segmentation violation in the order of R197. The causes S1 to S5 (and S6) end the step alike. -/
def State.fetchDecode (s : State) : Except SegvCause (Instr × Nat) :=
  if s.brk.toNat < s.cursor.toNat then .error .cursorBeyondBreak
  else decodeInstr s.codeRead s.cursor.toNat

end Sys2Proof.Machine
end

