-- ==== Sys2Proof/Machine/Control.lean ====
section
/-! DEFINITION. The no-op (spec/41_executor.md R142) and the halt (R143). -/

namespace Sys2Proof.Machine

/-- NOP: "no state change". -/
def execNop (s : State) : Host.Outcome State Fault Refusal :=
  whileRunning s fun s => s

/-- HLT: `raise SysHalt`; no register and no Memory is written, `ip` keeps the address of the HLT. -/
def execHlt (s : State) : Host.Outcome State Fault Refusal :=
  whileRunning s fun s => s.raise .sysHalt

end Sys2Proof.Machine
end

