-- ==== Sys2Proof/Machine/DataMove.lean ====
section
/-! DEFINITION. The data-move instruction (spec/41_executor.md R141). -/

namespace Sys2Proof.Machine

/-- MOV: `x[acc] <- a1`, all 16 bits. Operand 2 was decoded and is discarded (R146). -/
def execMov (operand1 _operand2 : Word) (s : State) : Host.Outcome State Fault Refusal :=
  whileRunning s fun s => s.writeReg .acc operand1

end Sys2Proof.Machine
end

