-- ==== Sys2Proof/Machine/Dispatch.lean ====
section
/-! DEFINITION. `execute`, the Executor's dispatch (spec/41_executor.md R140): one arm per instruction. -/

namespace Sys2Proof.Machine

def exec (i : Instr) (s : State) : Host.Outcome State Fault Refusal :=
  match i with
  | .mov operand1 operand2 => Sys2Proof.Machine.execMov operand1 operand2 s
  | .nop => Sys2Proof.Machine.execNop s
  | .hlt => Sys2Proof.Machine.execHlt s

end Sys2Proof.Machine
end

