-- ==== Sys2Proof/Machine/Loop.lean ====
section
/-! DEFINITION. The Execution Loop (spec/42_execution_loop.md): the parts of a step that are the same for every
instruction, and where an instruction has to lie for the next step to fetch it. -/

namespace Sys2Proof.Machine

/-- The position after the advance: the 17-bit sum (R162; it cannot wrap in a state that a run reaches, R170, log
entry 11). -/
def State.nextCursor (s : State) : Cursor := s.cursor + s.lastSize.setWidth 17

/-- The address of the opcode byte that the next step of the loop fetches, as a natural number (R22, R63). -/
def State.fetchAddr (s : State) : Nat := s.nextCursor.toNat

/-- Step part a, the advance: `cursor <- cursor + last_size`, `x[ip] <- cursor[15:0]` (R162). -/
def State.advance (s : State) : State :=
  { s with cursor := s.nextCursor, ip := s.nextCursor.setWidth 16 }

/-- Step part e: `last_size <- sz` after an instruction that did not raise; a step that ended in a raise keeps
`last_size` (R165). -/
def State.retire (s : State) (sz : Nat) : State :=
  if s.phase = .run then { s with lastSize := BitVec.ofNat 2 sz } else s

/-- What follows the Executor's answer. -/
def afterExec (sz : Nat) : Host.Outcome State Fault Refusal → Host.Outcome State Fault Refusal
  | .next s => .next (s.retire sz)
  | .fault f => .fault f
  | .refused r => .refused r

/-- `Step()` with the Executor as an argument (R166): enabled in `RUN`; in every other phase the hardware is still
(R168, R202, R206; log entry 3). -/
def loopStep (execute : Instr → State → Host.Outcome State Fault Refusal) (s : State) :
    Host.Outcome State Fault Refusal :=
  match s.phase with
  | .idle => .next s
  | .run =>
    match s.advance.fetchDecode with
    | .error _ => .next (s.advance.raise .segV)
    | .ok (i, sz) => afterExec sz (execute i s.advance)
  | .halted => .next s
  | .faulted => .next s

/-! ### Placing an instruction where the next step fetches it (the host's check uses it; log entry 12) -/

/-- A running loop about to fetch at address 0. -/
def State.restartLoop (s : State) : State :=
  { s with cursor := 0, lastSize := 0, ip := 0, phase := .run, cond := .none }

/-- The loop as it stands if it is running and 4 bytes fit at its next fetch, else a loop about to fetch at 0: nothing
is fetched outside `RUN`, and no instruction fits at the very top of Memory. -/
def State.readyToFetch (s : State) : State :=
  if s.phase = .run ∧ s.fetchAddr + 4 ≤ Config.memSize then s else s.restartLoop

/-- Record the bytes of a list from address `a` on. -/
def Memory.storeList (m : Memory) (a : Nat) : List Byte → Memory
  | [] => m
  | b :: rest => Memory.storeList (m.store a b) (a + 1) rest

/-- The 4 bytes of an instruction (`wordBytes`) stored at the next fetch, and the break-line raised, where it is lower,
so that they are code. -/
def State.placeAtFetch (s : State) (bytes : List Byte) : State :=
  let r := s.readyToFetch
  let top := r.fetchAddr + 4
  { r with
    mem := r.mem.storeList r.fetchAddr bytes
    brk := if r.brk.toNat < top then BitVec.ofNat 16 top else r.brk }

end Sys2Proof.Machine
end

