-- ==== Sys2Proof/Machine/Step.lean ====
section
/-! DEFINITION. One step of the machine (spec/42_execution_loop.md R166) and the placing of one instruction. -/

namespace Sys2Proof.Machine

/-- One step: the Execution Loop around the Executor. A step is one transition (R169). -/
def step (s : State) : Host.Outcome State Fault Refusal := loopStep exec s

/-- `s` with the instruction whose bits are `w` stored where `step` fetches its next instruction. -/
def State.withFetchWord (s : State) (nbits w : Nat) : State := s.placeAtFetch (wordBytes nbits w)

end Sys2Proof.Machine
end

