-- ==== Sys2Proof/Machine/Flags.lean ====
section
/-! DEFINITION. VMCORE has no status flags, no condition codes and no status register (spec/10_state.md R23), so there is
no flag computation. What it has is the terminal outcome: the two-bit codes of the phase and the condition (R27) and the
one-bit output `exit_fault` (60_exceptions.md R203). -/

namespace Sys2Proof.Machine

/-- `IDLE`=0, `RUN`=1, `HALTED`=2, `FAULTED`=3 (R27, decision D7 of the spec, log entry 17). -/
def Phase.code : Phase → BitVec 2
  | .idle => 0
  | .run => 1
  | .halted => 2
  | .faulted => 3

/-- `NONE`=0, `SYS_HALT`=1, `SEGV`=2 (R27, R190, decision D10 of the spec, log entry 17). -/
def Cond.code : Cond → BitVec 2
  | .none => 0
  | .sysHalt => 1
  | .segv => 2

/-- `exit_fault`: defined only in a terminal phase, 0 in `HALTED`, 1 in `FAULTED` (R203). -/
def State.exitFault (s : State) : Option (BitVec 1) :=
  match s.phase with
  | .idle => none
  | .run => none
  | .halted => some 0
  | .faulted => some 1

end Sys2Proof.Machine
end

