-- ==== Sys2Proof/Machine/HostPort.lean ====
section
/-! DEFINITION. The host's interface (spec/70_reset_and_hazards.md R230, R231, R236; 42_execution_loop.md R161, R168): the
events the host may send between steps, what each does in each phase, and the read-out port. The events are inputs: no
part of `step` chooses one (log entry 3). -/

namespace Sys2Proof.Machine

/-- What the host can do to the machine (R236); everything not listed it cannot do. -/
inductive HostEvent where
  /-- `reset`, allowed at any time. -/
  | reset
  /-- load the byte `b` at the 16-bit address `a`. -/
  | loadByte (a : Word) (b : Byte)
  /-- load the break-line. -/
  | loadBreak (v : Word)
  /-- begin the run. -/
  | start
  deriving DecidableEq, Repr

/-- "every state element takes its reset value" (R168, R230); the bytes of Memory are unspecified anew, so the machine
creation counts up (log entry 2). -/
def State.hostReset (s : State) : State := { State.reset with launch := s.launch + 1 }

/-- A load or a start acts in `IDLE` only and is ignored otherwise (R168, R236). -/
def whileIdle (s : State) (f : State → State) : State := if s.phase = .idle then f s else s

/-- `cursor <- 0; last_size <- 0; phase <- RUN`; no register is written (R161). -/
def State.startRun (s : State) : State := { s with cursor := 0, lastSize := 0, phase := .run }

/-- The effect of a host event. -/
def hostApply (e : HostEvent) (s : State) : State :=
  match e with
  | .reset => s.hostReset
  | .loadByte a b => whileIdle s fun s => s.storeByte a.toNat b
  | .loadBreak v => whileIdle s fun s => { s with brk := v }
  | .start => whileIdle s fun s => s.startRun

/-- The read-out port's numbering: 0 `acc`, 1 `base`, 2 `count`, 3 `data`, 4 `sp`, 5 `ip` (R20, decision D13 of the
spec). -/
def Reg.ofIndex : Nat → Option Reg
  | 0 => some .acc
  | 1 => some .base
  | 2 => some .count
  | 3 => some .data
  | 4 => some .sp
  | 5 => some .ip
  | _ => none

/-- The host reads register `i`: "meaningful in `HALTED`, `FAULTED` (and `IDLE`); during `RUN` the host does not look"
(R236), so in `RUN` the port answers nothing (log entry 13). -/
def State.hostReadReg (s : State) (i : Nat) : Option Word :=
  if s.phase = .run then none else (Reg.ofIndex i).map s.readReg

/-- The host reads `phase`, `cond` (their two-bit codes) and `exit_fault` (R236, R207), under the same condition. -/
def State.hostReadOutcome (s : State) : Option (BitVec 2 × BitVec 2 × Option (BitVec 1)) :=
  if s.phase = .run then none else some (s.phase.code, s.cond.code, s.exitFault)

end Sys2Proof.Machine
end

