-- ==== Sys2Proof/Safety.lean ====
section
/-! DEFINITION. The terms in which statements speak of runs: several steps, terminal states, the events of the whole
system, what it reaches, its invariant, which bytes a run reads, and when two machines agree
on them. -/

namespace Sys2Proof.Machine

/-- `k` steps, stopping at the first fault or refusal. -/
def runSteps : Nat → State → Host.Outcome State Fault Refusal
  | 0, s => .next s
  | k + 1, s =>
    match step s with
    | .next t => runSteps k t
    | .fault f => .fault f
    | .refused r => .refused r

/-- The run is over (00_scope section 7, R206). -/
def State.Terminal (s : State) : Prop := s.phase = .halted ∨ s.phase = .faulted

/-- The pairs of phase and condition that occur (R27). -/
def legalOutcome : Phase → Cond → Bool
  | .idle, .none => true
  | .run, .none => true
  | .halted, .sysHalt => true
  | .faulted, .segv => true
  | _, _ => false

/-- The state right after `start`, before the first step (R161). -/
def State.JustStarted (s : State) : Prop := s.phase = .run ∧ s.cursor = 0 ∧ s.lastSize = 0

/-- What holds between any two events of the whole system. -/
structure State.Inv (s : State) : Prop where
  /-- Memory is in its canonical form. -/
  memCanonical : s.mem.wf = true
  /-- `x[ip] = cursor[15:0]` (R33). -/
  ipIsCursor : s.ip = s.cursor.setWidth 16
  /-- No pair of phase and condition occurs but the four of R27. -/
  outcomeLegal : legalOutcome s.phase s.cond = true
  /-- The cursor never passes the break-line, hence never passes 65535 (R170). -/
  cursorInside : s.cursor.toNat ≤ s.brk.toNat
  /-- Nor does the position that the next advance reaches (R170, R191 on S1). -/
  nextInside : s.phase = .run → s.cursor.toNat + s.lastSize.toNat ≤ s.brk.toNat
  /-- Before the start the loop stands at address 0 (R22, R30). -/
  idleAtZero : s.phase = .idle → s.cursor = 0 ∧ s.lastSize = 0
  /-- No instruction has size 2 (R26). -/
  noSizeTwo : s.lastSize ≠ 2
  /-- The last size is 0 only before the loop has moved (R26). -/
  zeroSizeAtZero : s.lastSize = 0 → s.cursor = 0
  /-- Only 0 to 255 can be loaded (R90). -/
  accIsByte : s.acc.toNat < 256
  /-- No instruction writes these registers (R21). -/
  unwritten : s.base = 0 ∧ s.count = 0 ∧ s.data = 0 ∧ s.sp = 0

/-- The events of the whole system: the core steps, or the host acts between two steps. -/
inductive Event where
  | step
  | host (e : HostEvent)
  deriving DecidableEq, Repr

/-- What an event leads to. -/
def Event.apply : Event → State → Host.Outcome State Fault Refusal
  | .step, s => Machine.step s
  | .host e, s => .next (hostApply e s)

/-- The states that the system reaches from reset by any events in any order. -/
inductive Reachable : State → Prop where
  | reset : Reachable State.reset
  | event {s t : State} (e : Event) : Reachable s → e.apply s = .next t → Reachable t

/-- Two machines whose states differ at most in Memory and in which machine creation they are. -/
def SameButMemory (s t : State) : Prop := { s with mem := t.mem, launch := t.launch } = t

/-- The next step reads the byte at `a` (R63, R52): it is running, `a` lies in the code region, and `a` is the fetch
address `p`, or `p + 1` for a size of 2 or 3, or `p + 3` for a size of 3. A read outside the code region faults and
takes no byte. -/
def State.Reads (s : State) (a : Nat) : Prop :=
  s.phase = .run ∧ a < s.brk.toNat ∧
    (a = s.fetchAddr ∨
      a = s.fetchAddr + 1 ∧ (opcodeSize (s.byteAt s.fetchAddr) = 2 ∨ opcodeSize (s.byteAt s.fetchAddr) = 3) ∨
      a = s.fetchAddr + 3 ∧ opcodeSize (s.byteAt s.fetchAddr) = 3)

/-- Some step of the run from `s` on reads the byte at `a`. -/
inductive RunReads : State → Nat → Prop where
  | here {s : State} {a : Nat} : s.Reads a → RunReads s a
  | later {s t : State} {a : Nat} : step s = .next t → RunReads t a → RunReads s a

/-- Two machines hold the same byte at every address that the run of the first one reads (R32). -/
def SameReads (s t : State) : Prop := ∀ a, RunReads s a → s.byteAt a = t.byteAt a

end Sys2Proof.Machine
end

