-- ==== Sys2Proof/Certificates/Slice0/Obligations.lean ====
section
/-! DEFINITION. The statements for the provers. `s.fetchAddr` is the address of the opcode byte that the next step
fetches: the cursor after the advance. -/

section
open Sys2Proof Sys2Proof.Machine

/-! ### The Opcode Table, the Decoder, the encoder -/

/-- R111, R113: the table's three entries, and a size of at least 1 exactly for them. -/
def Obligations.OpcodeTableSizes : Prop :=
  opcodeSize 0x01#8 = 3 ∧ opcodeSize 0x02#8 = 1 ∧ opcodeSize 0x03#8 = 1 ∧
  (∀ op : Byte, op ≠ 0x01#8 → op ≠ 0x02#8 → op ≠ 0x03#8 → opcodeSize op = 0) ∧
  (∀ op : Byte, 1 ≤ opcodeSize op ↔ op = 0x01#8 ∨ op = 0x02#8 ∨ op = 0x03#8)

/-- Operand fields by size, whatever the reads answer (40_opcode_table_and_decoder.md section 2). That an absent operand
is 0, that operand 2 is one byte, and that operand 1 is the cause where both operand bytes are outside are decisions D6,
D5 and D8 of the spec; log entries 20, 7 and 21. -/
def Obligations.DecoderFieldsBySize : Prop :=
  ∀ (read : Nat → Option Byte) (p : Nat),
    operandFields read p 1 = .ok (0, 0) ∧
    (∀ b1, read (p + 1) = some b1 → operandFields read p 2 = .ok (b1.setWidth 16, 0)) ∧
    (∀ b1 b2, read (p + 1) = some b1 → read (p + 3) = some b2 →
      operandFields read p 3 = .ok (b1.setWidth 16, b2.setWidth 16)) ∧
    (read (p + 1) = none →
      operandFields read p 2 = .error .operand1Outside ∧ operandFields read p 3 = .error .operand1Outside) ∧
    (∀ b1, read (p + 1) = some b1 → read (p + 3) = none → operandFields read p 3 = .error .operand2Outside) ∧
    (∀ sz, sz = 0 ∨ 3 < sz → operandFields read p sz = .error .badSize)

/-- Words written out from the layout of 30_encoding.md: the vectors T2, V5 and V12 of 95_test_vectors.md. -/
def Obligations.SpecWordsDecode : Prop :=
  decodeBytes [0x01#8, 0x2A#8, 0x99#8, 0x03#8] = .ok (.mov 0x002A#16 0x0003#16, 3) ∧
  decodeBytes [0x01#8, 0xFF#8, 0xAB#8, 0x03#8] = .ok (.mov 0x00FF#16 0x0003#16, 3) ∧
  decodeBytes [0x02#8] = .ok (.nop, 1) ∧
  decodeBytes [0x03#8] = .ok (.hlt, 1) ∧
  decodeBytes [0x01#8, 0x07#8, 0x00#8] = .error .operand2Outside ∧
  decodeBytes [0x01#8] = .error .operand1Outside ∧
  decodeBytes [0x00#8] = .error .badSize ∧
  decodeBytes [0x04#8] = .error .badSize ∧
  decodeBytes [] = .error .fetchOutside

/-- Wherever the bytes of a well-formed instruction lie, with ANY reserved byte and followed by the byte its operand 2
comes from, the Decoder reads that instruction and its size. -/
def Obligations.DecodeOfEncode : Prop :=
  ∀ (i : Instr) (reserved : Byte) (read : Nat → Option Byte) (p : Nat), WellFormed i →
    (∀ k b, (encodeWith reserved i ++ lookahead i)[k]? = some b → read (p + k) = some b) →
    decodeInstr read p = .ok (i, (encode i).length)

/-- What decodes is well-formed and lies there encoded, up to the reserved byte at offset +2: no two instructions share
an encoding. -/
def Obligations.DecodedBytesAreItsEncoding : Prop :=
  ∀ (i : Instr) (sz : Nat) (read : Nat → Option Byte) (p : Nat), decodeInstr read p = .ok (i, sz) →
    WellFormed i ∧ sz = (encode i).length ∧ sz = opcodeSize i.opcode ∧
    ∀ k b, k ≠ 2 → (encode i ++ lookahead i)[k]? = some b → read (p + k) = some b

/-! ### The instructions -/

/-- R141: all 16 bits of `acc` are replaced by operand 1 and nothing else is written; as a step, the loaded value is the
byte at offset +1, and where a byte that the decode needs is not code, `acc` is not written. -/
def Obligations.DataMoveLoadsAccumulator : Prop :=
  (∀ (operand1 operand2 : Word) (s : State), s.phase = .run →
    exec (.mov operand1 operand2) s = .next { s with acc := operand1 }) ∧
  (∀ s : State, s.phase = .run → s.byteAt s.fetchAddr = 0x01#8 → s.fetchAddr + 3 < s.brk.toNat →
    step s = .next { s with
      acc := (s.byteAt (s.fetchAddr + 1)).setWidth 16
      cursor := s.nextCursor, ip := s.nextCursor.setWidth 16, lastSize := 3 }) ∧
  (∀ s : State, s.phase = .run → s.byteAt s.fetchAddr = 0x01#8 → s.brk.toNat ≤ s.fetchAddr + 3 →
    ∃ t, step s = .next t ∧ t.phase = .faulted ∧ t.acc = s.acc)

/-- R142: a no-op changes nothing; as a step it only moves on and sets `last_size` to 1, and only its fetch can fault; N
no-ops and a halt change no register but `ip`. -/
def Obligations.NoOpOnlyMovesOn : Prop :=
  (∀ s : State, exec .nop s = .next s) ∧
  (∀ s : State, s.phase = .run → s.byteAt s.fetchAddr = 0x02#8 → s.fetchAddr < s.brk.toNat →
    step s = .next { s with cursor := s.nextCursor, ip := s.nextCursor.setWidth 16, lastSize := 1 }) ∧
  (∀ s : State, s.phase = .run → s.byteAt s.fetchAddr = 0x02#8 → s.brk.toNat ≤ s.fetchAddr →
    ∃ t, step s = .next t ∧ t.phase = .faulted) ∧
  (∀ (n : Nat) (s : State), s.phase = .run → s.fetchAddr + n < s.brk.toNat →
    (∀ k, k < n → s.byteAt (s.fetchAddr + k) = 0x02#8) → s.byteAt (s.fetchAddr + n) = 0x03#8 →
    ∃ t, runSteps (n + 1) s = .next t ∧ t.phase = .halted ∧ t.cond = .sysHalt ∧
      t.ip.toNat = s.fetchAddr + n ∧ (∀ r, r ≠ .ip → t.readReg r = s.readReg r))

/-- R143: the halt raises the system halt and writes nothing else; `ip` keeps its own address, `last_size` is not added,
the exit status is success and no later step changes anything; where its fetch is outside the code region it does not
happen. -/
def Obligations.HaltEndsRun : Prop :=
  (∀ s : State, s.phase = .run → exec .hlt s = .next { s with phase := .halted, cond := .sysHalt }) ∧
  (∀ s : State, s.phase = .run → s.byteAt s.fetchAddr = 0x03#8 → s.fetchAddr < s.brk.toNat →
    ∃ t, t = { s with cursor := s.nextCursor, ip := s.nextCursor.setWidth 16, phase := .halted, cond := .sysHalt } ∧
      step s = .next t ∧ t.exitFault = some 0 ∧ ∀ k, runSteps k t = .next t) ∧
  (∀ s : State, s.phase = .run → s.byteAt s.fetchAddr = 0x03#8 → s.brk.toNat ≤ s.fetchAddr →
    ∃ t, step s = .next t ∧ t.phase = .faulted)

/-- Frame of the data-move and the no-op: no register but the data-move's `acc`, no byte of Memory, and no other part of
the state changes. -/
def Obligations.DataMoveAndNoOpFrame : Prop :=
  ∀ (i : Instr) (s t : State), i ≠ .hlt → exec i s = .next t →
    (∀ r, r ≠ .acc → t.readReg r = s.readReg r) ∧ (i = .nop → t.acc = s.acc) ∧
    (∀ a, t.byteAt a = s.byteAt a) ∧ t.brk = s.brk ∧ t.cursor = s.cursor ∧ t.lastSize = s.lastSize ∧
    t.phase = s.phase ∧ t.cond = s.cond ∧ t.launch = s.launch

/-- Frame of the halt: every register, `ip` among them, every byte of Memory, the break-line and the loop's hidden
registers stay; only the phase and the condition may change. -/
def Obligations.HaltFrame : Prop :=
  ∀ s t : State, exec .hlt s = .next t →
    (∀ r, t.readReg r = s.readReg r) ∧ (∀ a, t.byteAt a = s.byteAt a) ∧ t.brk = s.brk ∧ t.cursor = s.cursor ∧
    t.lastSize = s.lastSize ∧ t.launch = s.launch

/-- 41_executor.md section 3: the Executor writes nothing in any phase other than `RUN`. -/
def Obligations.ExecutorStillOutsideRun : Prop :=
  ∀ (i : Instr) (s : State), s.phase ≠ .run → exec i s = .next s

/-! ### The step -/

/-- When the bytes at the fetch address decode to `i`, the step is `exec i` on the advanced state, and then, unless `i`
raised, the decoded size is remembered. -/
def Obligations.StepRunsDecodedInstruction : Prop :=
  ∀ (s : State) (i : Instr) (sz : Nat), s.phase = .run → WellFormed i →
    decodeInstr s.codeRead s.fetchAddr = .ok (i, sz) →
    ∃ t, exec i { s with cursor := s.nextCursor, ip := s.nextCursor.setWidth 16 } = .next t ∧
      step s = .next (if t.phase = .run then { t with lastSize := BitVec.ofNat 2 sz } else t)

/-- R162: the advance comes first, whatever the step then does: `cursor` and `ip` move by the last size, without wrap in
a state that meets the invariant, and nothing else in a step moves them. -/
def Obligations.AdvanceComesFirst : Prop :=
  (∀ s t : State, s.phase = .run → step s = .next t →
    t.cursor = s.cursor + s.lastSize.setWidth 17 ∧ t.ip = t.cursor.setWidth 16 ∧
    (s.ip = s.cursor.setWidth 16 → t.ip = s.ip + s.lastSize.setWidth 16) ∧
    (s.Inv → t.cursor.toNat = s.cursor.toNat + s.lastSize.toNat)) ∧
  (∀ s t : State, s.phase = .run → s.lastSize = 0 → step s = .next t → t.cursor = s.cursor) ∧
  (∀ (i : Instr) (s t : State), exec i s = .next t → t.cursor = s.cursor ∧ t.ip = s.ip) ∧
  (∀ s t : State, s.phase ≠ .run → step s = .next t → t.cursor = s.cursor ∧ t.ip = s.ip)

/-- R165: `last_size` becomes the size of the instruction just executed without a raise, 3 after a data-move and 1 after
a no-op; a step that ends in a raise keeps it and the cursor as they are at the raise. -/
def Obligations.LastSizeRemembered : Prop :=
  ∀ s t : State, s.phase = .run → step s = .next t →
    (t.phase = .run → t.lastSize.toNat = opcodeSize (s.byteAt s.fetchAddr) ∧
      (s.byteAt s.fetchAddr = 0x01#8 ∧ t.lastSize = 3 ∨ s.byteAt s.fetchAddr = 0x02#8 ∧ t.lastSize = 1)) ∧
    (t.phase ≠ .run → t.lastSize = s.lastSize ∧ t.cursor = s.nextCursor)

/-- 20_memory.md section 2 (decisions D3 and D4 of the spec, log entry 15): a code read answers the byte exactly below
both bounds, and the second never decides. -/
def Obligations.CodeReadBound : Prop :=
  ∀ (s : State) (a : Nat),
    (a < s.brk.toNat → s.codeRead a = some (s.byteAt a) ∧ a < Config.memSize) ∧
    (s.brk.toNat ≤ a → s.codeRead a = none)

/-- R191: a step in `RUN` faults exactly by one of the causes S1 to S6, S6 being no case at all. -/
def Obligations.SegvCausesComplete : Prop :=
  (∀ s : State, s.phase = .run →
    ((∃ t, step s = .next t ∧ t.phase = .faulted) ↔
      (s.brk.toNat < s.fetchAddr) ∨
      (s.brk.toNat ≤ s.fetchAddr ∨ Config.memSize ≤ s.fetchAddr) ∨
      (opcodeSize (s.byteAt s.fetchAddr) = 0 ∨ 3 < opcodeSize (s.byteAt s.fetchAddr)) ∨
      ((opcodeSize (s.byteAt s.fetchAddr) = 2 ∨ opcodeSize (s.byteAt s.fetchAddr) = 3) ∧ s.brk.toNat ≤ s.fetchAddr + 1) ∨
      (opcodeSize (s.byteAt s.fetchAddr) = 3 ∧ s.brk.toNat ≤ s.fetchAddr + 3))) ∧
  (∀ (read : Nat → Option Byte) (p : Nat), decodeInstr read p ≠ .error .noExecutorCase) ∧
  (∀ s : State, s.phase = .run → s.fetchAddr < s.brk.toNat →
    s.byteAt s.fetchAddr = 0x02#8 ∨ s.byteAt s.fetchAddr = 0x03#8 → ∀ t, step s = .next t → t.phase ≠ .faulted)

/-- The cause is the first check that fails, in the order S1 to S5 (60_exceptions.md section 1, decision D8 of the spec, log
entry 21; no state records it). -/
def Obligations.FirstFailingCheckIsCause : Prop :=
  ∀ s : State,
    s.fetchDecode =
      if s.brk.toNat < s.cursor.toNat then .error .cursorBeyondBreak
      else if s.brk.toNat = s.cursor.toNat then .error .fetchOutside
      else if s.byteAt s.cursor.toNat = 0x02#8 then .ok (.nop, 1)
      else if s.byteAt s.cursor.toNat = 0x03#8 then .ok (.hlt, 1)
      else if s.byteAt s.cursor.toNat ≠ 0x01#8 then .error .badSize
      else if s.brk.toNat ≤ s.cursor.toNat + 1 then .error .operand1Outside
      else if s.brk.toNat ≤ s.cursor.toNat + 3 then .error .operand2Outside
      else .ok (.mov (zext16 (s.byteAt (s.cursor.toNat + 1))) (zext16 (s.byteAt (s.cursor.toNat + 3))), 3)

/-- R84: each of the 253 other opcode values has no size and faults before any semantic effect. -/
def Obligations.IllegalOpcodeFaults : Prop :=
  ∀ s : State, s.phase = .run → s.fetchAddr < s.brk.toNat →
    s.byteAt s.fetchAddr = 0x00#8 ∨ 0x04#8 ≤ s.byteAt s.fetchAddr →
    opcodeSize (s.byteAt s.fetchAddr) = 0 ∧
    step s = .next { s with
      cursor := s.nextCursor, ip := s.nextCursor.setWidth 16, phase := .faulted, cond := .segv }

/-- A fault is precise: the step's advance, the phase and the condition are all that changed (60_exceptions.md
section 2). -/
def Obligations.FaultIsPrecise : Prop :=
  ∀ s t : State, s.phase = .run → step s = .next t → t.phase = .faulted →
    t = { s with cursor := s.nextCursor, ip := s.nextCursor.setWidth 16, phase := .faulted, cond := .segv }

/-- R192: the system halt comes from the execution of a halt instruction and from nothing else, and is a success. -/
def Obligations.SystemHaltOnlyByHlt : Prop :=
  ∀ s t : State, s.phase = .run → step s = .next t →
    (t.phase = .halted ↔ s.fetchAddr < s.brk.toNat ∧ s.byteAt s.fetchAddr = 0x03#8) ∧
    (t.phase = .halted → t.cond = .sysHalt ∧ t.exitFault = some 0)

/-- The first fetch is checked like every other (42_execution_loop.md section 2, decision D3 of the spec, log entry 15): an empty code
region faults at the first step, and so does a first data-move with a break-line of 1, 2 or 3, without writing `acc`. -/
def Obligations.FirstFetchIsChecked : Prop :=
  (∀ s : State, s.JustStarted → s.brk = 0 →
    step s = .next { s with ip := 0, phase := .faulted, cond := .segv }) ∧
  (∀ s : State, s.JustStarted → 1 ≤ s.brk.toNat → s.brk.toNat ≤ 3 → s.byteAt 0 = 0x01#8 →
    step s = .next { s with ip := 0, phase := .faulted, cond := .segv })

/-- A run that reaches the break-line faults there and does not execute the first byte of the data region
(42_execution_loop.md section 3). -/
def Obligations.RunOffEndFaults : Prop :=
  ∀ s : State, s.phase = .run → s.fetchAddr = s.brk.toNat →
    step s = .next { s with cursor := s.brk.setWidth 17, ip := s.brk, phase := .faulted, cond := .segv }

/-! ### What a step reads and writes -/

/-- R63: a step forms the addresses `p`, `p + 1` (for a size of 2 or 3) and `p + 3` (for a size of 3) and no other: two
machines that agree on those bytes step alike. -/
def Obligations.StepReadsOnlyThreeAddresses : Prop :=
  ∀ s t : State, SameButMemory s t → s.phase = .run →
    s.byteAt s.fetchAddr = t.byteAt s.fetchAddr →
    (opcodeSize (s.byteAt s.fetchAddr) = 2 ∨ opcodeSize (s.byteAt s.fetchAddr) = 3 →
      s.byteAt (s.fetchAddr + 1) = t.byteAt (s.fetchAddr + 1)) →
    (opcodeSize (s.byteAt s.fetchAddr) = 3 → s.byteAt (s.fetchAddr + 3) = t.byteAt (s.fetchAddr + 3)) →
    ∃ s' t', step s = .next s' ∧ step t = .next t' ∧ SameButMemory s' t'

/-- The byte at offset +2 has no effect, whatever it holds (30_encoding.md section 4). -/
def Obligations.ReservedByteHasNoEffect : Prop :=
  ∀ (s : State) (v : Byte), s.phase = .run →
    ∃ t, step s = .next t ∧
      step { s with mem := s.mem.store (s.fetchAddr + 2) v } =
        .next { t with mem := s.mem.store (s.fetchAddr + 2) v }

/-- R32: two machines that agree on everything but Memory, and there on the addresses that the run reads, run alike for
ever, whatever their memories hold elsewhere (in a reserved byte, in an unwritten byte below the break-line) and in
whichever machine creation they are. -/
def Obligations.RunsDependOnCodeOnly : Prop :=
  ∀ (k : Nat) (s t : State), SameButMemory s t → SameReads s t →
    ∃ s' t', runSteps k s = .next s' ∧ runSteps k t = .next t' ∧ SameButMemory s' t'

/-- The core never writes Memory, the break-line or the registers `base`, `count`, `data` and `sp` (20_memory.md
section 2, 10_state.md section 1). -/
def Obligations.CoreWritesOnlyAccAndIp : Prop :=
  ∀ (k : Nat) (s t : State), runSteps k s = .next t →
    t.mem = s.mem ∧ (∀ a, t.byteAt a = s.byteAt a) ∧ t.brk = s.brk ∧ t.launch = s.launch ∧
    ∀ r, r ≠ .acc → r ≠ .ip → t.readReg r = s.readReg r

/-! ### The run state machine -/

/-- Outside `RUN` the hardware is still, for any number of steps (42_execution_loop.md section 3, 60_exceptions.md
section 2; log entry 3). -/
def Obligations.StillOutsideRun : Prop :=
  ∀ (k : Nat) (s : State), s.phase ≠ .run → runSteps k s = .next s

/-- R168: the transitions, complete. In `RUN` the step goes on exactly where a data-move or a no-op is decoded, halts
exactly where a halt is, and faults exactly where the decode does. -/
def Obligations.PhaseTransitions : Prop :=
  (∀ s : State, (hostApply .reset s).phase = .idle ∧ { hostApply .reset s with launch := 0 } = State.reset) ∧
  (∀ s : State, s.phase = .idle →
    (∀ a b, (hostApply (.loadByte a b) s).phase = .idle ∧
      (a.toNat < Config.memSize → (hostApply (.loadByte a b) s).byteAt a.toNat = b)) ∧
    (∀ v, hostApply (.loadBreak v) s = { s with brk := v }) ∧
    hostApply .start s = { s with cursor := 0, lastSize := 0, phase := .run }) ∧
  (∀ s : State, s.phase = .run →
    ∃ t, step s = .next t ∧
      ((t.phase = .run ∧ t.cond = s.cond ∧
          (s.byteAt s.fetchAddr = 0x01#8 ∧ s.fetchAddr + 3 < s.brk.toNat ∨
            s.byteAt s.fetchAddr = 0x02#8 ∧ s.fetchAddr < s.brk.toNat) ∧
          ∃ i sz, s.advance.fetchDecode = .ok (i, sz) ∧ i ≠ .hlt) ∨
        (t.phase = .halted ∧ t.cond = .sysHalt ∧ s.byteAt s.fetchAddr = 0x03#8 ∧ s.fetchAddr < s.brk.toNat ∧
          s.advance.fetchDecode = .ok (.hlt, 1)) ∨
        (t.phase = .faulted ∧ t.cond = .segv ∧
          (s.brk.toNat ≤ s.fetchAddr ∨ opcodeSize (s.byteAt s.fetchAddr) = 0 ∨
            s.byteAt s.fetchAddr = 0x01#8 ∧ s.brk.toNat ≤ s.fetchAddr + 3) ∧
          ∃ c, s.advance.fetchDecode = .error c))) ∧
  (∀ (s : State) (e : HostEvent), s.phase ≠ .idle → e ≠ .reset → hostApply e s = s) ∧
  (∀ s : State, s.Terminal → step s = .next s)

/-- Every run ends, halted or faulted, within `BRK + 1` steps (42_execution_loop.md section 3). The bits of `exit_fault`
are decision D10 of the spec, log entry 17. -/
def Obligations.EveryRunTerminates : Prop :=
  ∀ s : State, s.phase = .run →
    ∃ t, runSteps (s.brk.toNat + 1) s = .next t ∧
      (t.phase = .halted ∧ t.cond = .sysHalt ∧ t.exitFault = some 0 ∨
        t.phase = .faulted ∧ t.cond = .segv ∧ t.exitFault = some 1)

/-! ### The invariant -/

/-- The state after reset meets the invariant (its reset values: log entry 14). -/
def Obligations.ResetMeetsInvariant : Prop := State.reset.Inv

/-- Every step keeps the invariant: canonical memory, `ip` equal to the cursor, a legal pair of phase and condition, the
cursor within the break-line, the last size legal, `acc` a byte, the unused registers 0. -/
def Obligations.StepKeepsInvariant : Prop := ∀ s t : State, s.Inv → step s = .next t → t.Inv

/-- Every host event keeps it. The host's events are decision D7 of the spec, log entry 3. -/
def Obligations.HostEventsKeepInvariant : Prop := ∀ (s : State) (e : HostEvent), s.Inv → (hostApply e s).Inv

/-- So every state that any events in any order reach from reset meets it, and every event is answered there. The host's
events are decision D7 of the spec, log entry 3; the reset values, log entry 14. -/
def Obligations.ReachableMeetsInvariant : Prop :=
  ∀ s : State, Reachable s → s.Inv ∧ ∀ e : Event, ∃ t, e.apply s = .next t ∧ Reachable t

/-- In a state that meets the invariant the advance never wraps: the numbers add up, `ip` is the cursor, and neither
passes 65535 (42_execution_loop.md section 3). -/
def Obligations.CursorAdvanceIsExact : Prop :=
  ∀ s t : State, s.Inv → s.phase = .run → step s = .next t →
    t.cursor.toNat = s.cursor.toNat + s.lastSize.toNat ∧ t.ip.toNat = s.ip.toNat + s.lastSize.toNat ∧
    t.ip.toNat = t.cursor.toNat ∧ t.cursor.toNat ≤ 65535

/-! ### Reset and the host -/

/-- The table of reset values (10_state.md section 8, with decisions D2, D7, D10 and D12 of the spec; log entry 14), after
power-on and after a reset in any state; no byte of Memory is recorded (log entry 1). -/
def Obligations.ResetLeavesTable : Prop :=
  ∀ s r : State, r = State.reset ∨ r = hostApply .reset s →
    (∀ q, r.readReg q = 0) ∧ r.cursor = 0 ∧ r.lastSize = 0 ∧ r.phase = .idle ∧ r.cond = .none ∧ r.brk = 0 ∧
    ∀ a, r.mem.written a = none

/-- The load port in `IDLE` (70_reset_and_hazards.md section 3): the byte is written at an address of Memory, at 65535
nothing is, and nothing else changes. The port is decision D7 of the spec (log entry 3); that 65535 is no address of
Memory is its decision D1 (log entry 10). -/
def Obligations.HostLoadsByte : Prop :=
  ∀ (s : State) (a : Word) (b : Byte), s.phase = .idle →
    (a.toNat < Config.memSize → (hostApply (.loadByte a b) s).byteAt a.toNat = b) ∧
    (a.toNat = 65535 → hostApply (.loadByte a b) s = s) ∧
    (∀ c, c ≠ a.toNat → (hostApply (.loadByte a b) s).byteAt c = s.byteAt c) ∧
    { hostApply (.loadByte a b) s with mem := s.mem } = s

/-- The read-out port (70_reset_and_hazards.md section 3; numbering and codes: decisions D13, D7 and D10 of the spec, log
entry 17): six registers in order and the outcome, meaningful outside `RUN`. That it answers nothing in `RUN` is the model's choice, log entry 13. -/
def Obligations.ReadOutPort : Prop :=
  ∀ s : State, (s.phase ≠ .run →
      s.hostReadReg 0 = some s.acc ∧ s.hostReadReg 1 = some s.base ∧ s.hostReadReg 2 = some s.count ∧
      s.hostReadReg 3 = some s.data ∧ s.hostReadReg 4 = some s.sp ∧ s.hostReadReg 5 = some s.ip ∧
      ∀ n, 6 ≤ n → s.hostReadReg n = none) ∧
    (s.phase = .idle → s.cond = .none → s.hostReadOutcome = some (0, 0, none)) ∧
    (s.phase = .halted → s.cond = .sysHalt → s.hostReadOutcome = some (2, 1, some 0)) ∧
    (s.phase = .faulted → s.cond = .segv → s.hostReadOutcome = some (3, 2, some 1)) ∧
    (s.phase = .run → s.hostReadOutcome = none ∧ ∀ n, s.hostReadReg n = none)

/-- `exit_fault` is defined exactly in a terminal phase: 0 when halted, 1 when faulted (60_exceptions.md section 3,
decision D10 of the spec, log entry 17). -/
def Obligations.ExitStatus : Prop :=
  ∀ s : State, (s.exitFault.isSome = true ↔ s.Terminal) ∧ (s.exitFault = some 0 ↔ s.phase = .halted) ∧
    (s.exitFault = some 1 ↔ s.phase = .faulted)

/-- The read of the data view (20_memory.md section 2): legal exactly up to the end of the buffer, and then its bytes. -/
def Obligations.DataViewRead : Prop :=
  ∀ (s : State) (a n : Nat),
    (Config.memSize < a + n → s.memRead a n = none) ∧
    (a + n ≤ Config.memSize → ∃ bytes, s.memRead a n = some bytes ∧ bytes.length = n ∧
      ∀ k, k < n → bytes[k]? = some (s.byteAt (a + k)))

end
end

