-- ==== Sys2Proof/Laws/Memory.lean ====
section
/-! SUPPORT. The laws of Memory: read after write, and that writing keeps the canonical form. -/

namespace Sys2Proof.Machine

theorem written_store_same (m : Memory) (a : Nat) (v : Byte) : (m.store a v).written a = some v := by
  induction m with
  | nil => simp [Memory.store, Memory.written]
  | cons e rest ih =>
    obtain ⟨k, b⟩ := e
    simp only [Memory.store]
    split
    · simp [Memory.written]
    · split
      · simp [Memory.written]
      · next h => simp [Memory.written, Ne.symm h, ih]

theorem written_store_ne (m : Memory) {a c : Nat} (v : Byte) (h : c ≠ a) :
    (m.store a v).written c = m.written c := by
  induction m with
  | nil => simp [Memory.store, Memory.written, Ne.symm h]
  | cons e rest ih =>
    obtain ⟨k, b⟩ := e
    simp only [Memory.store]
    split
    · simp [Memory.written, Ne.symm h]
    · split
      · next hk => subst hk; simp [Memory.written, Ne.symm h]
      · simp [Memory.written, ih]

theorem store_wfFrom (m : Memory) {lo a : Nat} (v : Byte) (hm : m.wfFrom lo = true) (hlo : lo ≤ a)
    (ha : a < Config.memSize) : (m.store a v).wfFrom lo = true := by
  induction m generalizing lo with
  | nil => simp [Memory.store, Memory.wfFrom, hlo, ha]
  | cons e rest ih =>
    obtain ⟨k, b⟩ := e
    simp only [Memory.wfFrom, Bool.and_eq_true, decide_eq_true_eq] at hm
    simp only [Memory.store]
    split
    · next hk => simp [Memory.wfFrom, hlo, ha, hm.1.2, hm.2]; omega
    · split
      · next hk => subst hk; simp [Memory.wfFrom, hlo, ha, hm.2]
      · simp [Memory.wfFrom, hm.1.1, hm.1.2, ih hm.2 (by omega)]

/-- A store at an address of Memory keeps the canonical form. -/
theorem store_wf (m : Memory) {a : Nat} (v : Byte) (hm : m.wf = true) (ha : a < Config.memSize) :
    (m.store a v).wf = true := store_wfFrom m v hm (Nat.zero_le a) ha

/-- Placing bytes that fit keeps the canonical form. -/
theorem storeList_wf (m : Memory) (a : Nat) (bytes : List Byte) (hm : m.wf = true)
    (ha : a + bytes.length ≤ Config.memSize) : (m.storeList a bytes).wf = true := by
  induction bytes generalizing m a with
  | nil => exact hm
  | cons b rest ih =>
    simp only [List.length_cons] at ha
    exact ih _ _ (store_wf m b hm (by omega)) (by omega)

/-- The load port keeps the canonical form. -/
theorem storeByte_wf (s : State) (a : Nat) (b : Byte) (hm : s.mem.wf = true) : (s.storeByte a b).mem.wf = true := by
  unfold State.storeByte
  split
  · next h => exact store_wf s.mem b hm h
  · exact hm

/-- A canonical list records nothing below its first address. -/
theorem written_below {m : Memory} {lo a : Nat} (hm : m.wfFrom lo = true) (h : a < lo) : m.written a = none := by
  induction m generalizing lo with
  | nil => rfl
  | cons e rest ih =>
    obtain ⟨k, b⟩ := e
    simp only [Memory.wfFrom, Bool.and_eq_true, decide_eq_true_eq] at hm
    have : k ≠ a := by omega
    simp [Memory.written, this, ih hm.2 (by omega)]

/-- The form is canonical: two such lists that record the same bytes are the same list. -/
theorem wfFrom_ext {m n : Memory} {lo : Nat} (hm : m.wfFrom lo = true) (hn : n.wfFrom lo = true)
    (h : ∀ a, m.written a = n.written a) : m = n := by
  induction m generalizing n lo with
  | nil =>
    cases n with
    | nil => rfl
    | cons e rest => have := h e.1; simp [Memory.written] at this
  | cons e rest ih =>
    obtain ⟨k, b⟩ := e
    cases n with
    | nil => have := h k; simp [Memory.written] at this
    | cons e' rest' =>
      obtain ⟨k', b'⟩ := e'
      simp only [Memory.wfFrom, Bool.and_eq_true, decide_eq_true_eq] at hm hn
      have hk : k = k' := by
        have h1 := h k
        have h2 := h k'
        simp only [Memory.written, if_true] at h1 h2
        rcases Nat.lt_trichotomy k k' with hlt | heq | hgt
        · rw [if_neg (by omega), written_below hn.2 (by omega)] at h1
          exact absurd h1 (by simp)
        · exact heq
        · rw [if_neg (by omega), written_below hm.2 (by omega)] at h2
          exact absurd h2 (by simp)
      subst hk
      have hb : b = b' := by have := h k; simpa [Memory.written] using this
      subst hb
      have : rest = rest' := by
        refine ih hm.2 hn.2 fun a => ?_
        by_cases hak : k = a
        · subst hak
          rw [written_below hm.2 (by omega), written_below hn.2 (by omega)]
        · have := h a
          simpa [Memory.written, hak] using this
      rw [this]

theorem byteAt_storeByte_same (s : State) {a : Nat} (b : Byte) (h : a < Config.memSize) :
    (s.storeByte a b).byteAt a = b := by
  simp [State.storeByte, h, State.byteAt, written_store_same]

theorem byteAt_storeByte_ne (s : State) {a c : Nat} (b : Byte) (h : c ≠ a) :
    (s.storeByte a b).byteAt c = s.byteAt c := by
  unfold State.storeByte
  split
  · simp [State.byteAt, State.unlistedByte, written_store_ne _ _ h]
  · rfl

/-- What a byte reads as depends on Memory and the machine creation only. -/
theorem byteAt_congr {s t : State} (hm : s.mem = t.mem) (hl : s.launch = t.launch) (a : Nat) :
    s.byteAt a = t.byteAt a := by
  simp [State.byteAt, State.unlistedByte, hm, hl]

/-- The break-line alone bounds a code read: `BRK <= 65535 = MEM_SIZE` (R25, R52). -/
theorem codeRead_eq (s : State) (a : Nat) :
    s.codeRead a = if s.brk.toNat ≤ a then none else some (s.byteAt a) := by
  unfold State.codeRead
  split
  · rfl
  · have : ¬ Config.memSize ≤ a := by simp only [Config.memSize]; omega
    rw [if_neg this]

end Sys2Proof.Machine
end

