-- ==== Sys2Proof/Laws/Decode.lean ====
section
/-! SUPPORT. What the Opcode Table, the Decoder and the encoder answer, said once. -/

namespace Sys2Proof

@[simp] theorem lowByte_zext16 (b : Byte) : lowByte (zext16 b) = b := by
  simp [lowByte, zext16]

/-- An encodable operand is the zero extension of its low byte. -/
theorem zext16_lowByte {w : Word} (h : w.toNat < 256) : zext16 (lowByte w) = w := by
  apply BitVec.eq_of_toNat_eq
  simp only [lowByte, zext16, BitVec.toNat_setWidth]
  omega

theorem zext16_toNat_lt (b : Byte) : (zext16 b).toNat < 256 := by
  have := b.isLt
  simp only [zext16, BitVec.toNat_setWidth]
  omega

theorem wf_mov {a1 a2 : Word} : WellFormed (.mov a1 a2) ↔ a1.toNat < 256 ∧ a2.toNat < 256 := by
  simp [WellFormed, Instr.wf, encodableOperand]

/-- An opcode without an entry has size 0 (R113). -/
theorem opcodeSize_unknown {op : Byte} (h1 : op ≠ 0x01#8) (h2 : op ≠ 0x02#8) (h3 : op ≠ 0x03#8) : opcodeSize op = 0 := by
  simp [opcodeSize, h1, h2, h3]

section decoding
variable (read : Nat → Option Byte) (p : Nat)

theorem decodeInstr_outside (h : read p = none) : decodeInstr read p = .error .fetchOutside := by
  simp [decodeInstr, decodeAt, h]

/-- A data-move decodes where its two operand bytes can be read, and raises the first that cannot (R117, R121). -/
theorem decodeInstr_mov (h : read p = some 0x01#8) :
    decodeInstr read p =
      match read (p + 1) with
      | none => .error .operand1Outside
      | some b1 =>
        match read (p + 3) with
        | none => .error .operand2Outside
        | some b2 => .ok (.mov (zext16 b1) (zext16 b2), 3) := by
  simp only [decodeInstr, decodeAt, h, show opcodeSize 0x01#8 = 3 from rfl, operandFields]
  cases read (p + 1) with
  | none => rfl
  | some b1 => cases read (p + 3) <;> rfl

theorem decodeInstr_nop (h : read p = some 0x02#8) : decodeInstr read p = .ok (.nop, 1) := by
  simp only [decodeInstr, decodeAt, h, show opcodeSize 0x02#8 = 1 from rfl, operandFields]
  rfl

theorem decodeInstr_hlt (h : read p = some 0x03#8) : decodeInstr read p = .ok (.hlt, 1) := by
  simp only [decodeInstr, decodeAt, h, show opcodeSize 0x03#8 = 1 from rfl, operandFields]
  rfl

theorem decodeInstr_unknown {op : Byte} (h : read p = some op) (h1 : op ≠ 0x01#8) (h2 : op ≠ 0x02#8)
    (h3 : op ≠ 0x03#8) : decodeInstr read p = .error .badSize := by
  simp [decodeInstr, decodeAt, h, opcodeSize_unknown h1 h2 h3, operandFields]

/-- Everything a successful decode can be. -/
theorem decodeInstr_ok {i : Instr} {sz : Nat} (h : decodeInstr read p = .ok (i, sz)) :
    (∃ b1 b2, read p = some 0x01#8 ∧ read (p + 1) = some b1 ∧ read (p + 3) = some b2 ∧
      i = .mov (zext16 b1) (zext16 b2) ∧ sz = 3) ∨
    (read p = some 0x02#8 ∧ i = .nop ∧ sz = 1) ∨
    (read p = some 0x03#8 ∧ i = .hlt ∧ sz = 1) := by
  cases hp : read p with
  | none => simp [decodeInstr_outside read p hp] at h
  | some op =>
    by_cases h1 : op = 0x01#8
    · subst h1
      rw [decodeInstr_mov read p hp] at h
      cases hb1 : read (p + 1) with
      | none => simp [hb1] at h
      | some b1 =>
        cases hb2 : read (p + 3) with
        | none => simp [hb1, hb2] at h
        | some b2 =>
          simp only [hb1, hb2, Except.ok.injEq, Prod.mk.injEq] at h
          exact .inl ⟨b1, b2, rfl, rfl, rfl, h.1.symm, h.2.symm⟩
    · by_cases h2 : op = 0x02#8
      · subst h2
        simp only [decodeInstr_nop read p hp, Except.ok.injEq, Prod.mk.injEq] at h
        exact .inr (.inl ⟨rfl, h.1.symm, h.2.symm⟩)
      · by_cases h3 : op = 0x03#8
        · subst h3
          simp only [decodeInstr_hlt read p hp, Except.ok.injEq, Prod.mk.injEq] at h
          exact .inr (.inr ⟨rfl, h.1.symm, h.2.symm⟩)
        · simp [decodeInstr_unknown read p hp h1 h2 h3] at h

/-- A decode depends on the three bytes it may read, `p`, `p + 1` and `p + 3`, and on nothing else (R63). -/
theorem decodeInstr_congr {read' : Nat → Option Byte} (h0 : read p = read' p) (h1 : read (p + 1) = read' (p + 1))
    (h3 : read (p + 3) = read' (p + 3)) : decodeInstr read p = decodeInstr read' p := by
  have hf : ∀ sz, operandFields read p sz = operandFields read' p sz := by
    intro sz
    unfold operandFields
    split <;> simp [h1, h3]
  simp only [decodeInstr, decodeAt, h0, hf]

end decoding

end Sys2Proof
end

