-- ==== Sys2Proof/Laws/PerInstr.lean ====
section
/-! SUPPORT. Facts made one instruction at a time: the footprint of an encoding. -/

namespace Sys2Proof.Laws.Footprint

/-- Whatever the reserved byte, the encoding begins with the instruction's opcode and is as long as the Opcode Table
says (R80, R81), which is no more than `MAX_INSN_SIZE`. -/
def Statement (i : Instr) : Prop :=
  ∀ reserved : Byte,
    (encodeWith reserved i).head? = some i.opcode ∧ (encodeWith reserved i).length = opcodeSize i.opcode ∧
      opcodeSize i.opcode ≤ Config.maxInsnSize

theorem mov (operand1 operand2 : Word) : Statement (.mov operand1 operand2) :=
  fun _ => ⟨rfl, rfl, Nat.le_refl 3⟩

theorem nop : Statement .nop := fun _ => ⟨rfl, rfl, by decide⟩

theorem hlt : Statement .hlt := fun _ => ⟨rfl, rfl, by decide⟩

end Sys2Proof.Laws.Footprint
end

