-- ==== Sys2Proof/Laws/State.lean ====
section
/-! SUPPORT. What each update of the state leaves in each field. -/

namespace Sys2Proof.Machine

@[simp] theorem readReg_writeReg_same (s : State) (r : Reg) (v : Word) : (s.writeReg r v).readReg r = v := by
  cases r <;> rfl

theorem readReg_writeReg_ne (s : State) {r q : Reg} (v : Word) (h : q ≠ r) :
    (s.writeReg r v).readReg q = s.readReg q := by
  cases r <;> cases q <;> first | rfl | exact absurd rfl h

section fields
variable (s : State) (v : Word) (r : Reg) (c : Raised) (sz : Nat)

@[simp] theorem writeAcc_acc : (s.writeReg .acc v).acc = v := rfl
@[simp] theorem writeAcc_base : (s.writeReg .acc v).base = s.base := rfl
@[simp] theorem writeAcc_count : (s.writeReg .acc v).count = s.count := rfl
@[simp] theorem writeAcc_data : (s.writeReg .acc v).data = s.data := rfl
@[simp] theorem writeAcc_sp : (s.writeReg .acc v).sp = s.sp := rfl
@[simp] theorem writeAcc_ip : (s.writeReg .acc v).ip = s.ip := rfl
@[simp] theorem writeReg_mem : (s.writeReg r v).mem = s.mem := by cases r <;> rfl
@[simp] theorem writeReg_brk : (s.writeReg r v).brk = s.brk := by cases r <;> rfl
@[simp] theorem writeReg_cursor : (s.writeReg r v).cursor = s.cursor := by cases r <;> rfl
@[simp] theorem writeReg_lastSize : (s.writeReg r v).lastSize = s.lastSize := by cases r <;> rfl
@[simp] theorem writeReg_phase : (s.writeReg r v).phase = s.phase := by cases r <;> rfl
@[simp] theorem writeReg_cond : (s.writeReg r v).cond = s.cond := by cases r <;> rfl
@[simp] theorem writeReg_launch : (s.writeReg r v).launch = s.launch := by cases r <;> rfl

@[simp] theorem advance_acc : s.advance.acc = s.acc := rfl
@[simp] theorem advance_base : s.advance.base = s.base := rfl
@[simp] theorem advance_count : s.advance.count = s.count := rfl
@[simp] theorem advance_data : s.advance.data = s.data := rfl
@[simp] theorem advance_sp : s.advance.sp = s.sp := rfl
@[simp] theorem advance_ip : s.advance.ip = s.nextCursor.setWidth 16 := rfl
@[simp] theorem advance_mem : s.advance.mem = s.mem := rfl
@[simp] theorem advance_brk : s.advance.brk = s.brk := rfl
@[simp] theorem advance_cursor : s.advance.cursor = s.nextCursor := rfl
@[simp] theorem advance_lastSize : s.advance.lastSize = s.lastSize := rfl
@[simp] theorem advance_phase : s.advance.phase = s.phase := rfl
@[simp] theorem advance_cond : s.advance.cond = s.cond := rfl
@[simp] theorem advance_launch : s.advance.launch = s.launch := rfl

@[simp] theorem raise_acc : (s.raise c).acc = s.acc := by cases c <;> rfl
@[simp] theorem raise_base : (s.raise c).base = s.base := by cases c <;> rfl
@[simp] theorem raise_count : (s.raise c).count = s.count := by cases c <;> rfl
@[simp] theorem raise_data : (s.raise c).data = s.data := by cases c <;> rfl
@[simp] theorem raise_sp : (s.raise c).sp = s.sp := by cases c <;> rfl
@[simp] theorem raise_ip : (s.raise c).ip = s.ip := by cases c <;> rfl
@[simp] theorem raise_mem : (s.raise c).mem = s.mem := by cases c <;> rfl
@[simp] theorem raise_brk : (s.raise c).brk = s.brk := by cases c <;> rfl
@[simp] theorem raise_cursor : (s.raise c).cursor = s.cursor := by cases c <;> rfl
@[simp] theorem raise_lastSize : (s.raise c).lastSize = s.lastSize := by cases c <;> rfl
@[simp] theorem raise_launch : (s.raise c).launch = s.launch := by cases c <;> rfl
@[simp] theorem raise_segV_phase : (s.raise .segV).phase = .faulted := rfl
@[simp] theorem raise_segV_cond : (s.raise .segV).cond = .segv := rfl
@[simp] theorem raise_sysHalt_phase : (s.raise .sysHalt).phase = .halted := rfl
@[simp] theorem raise_sysHalt_cond : (s.raise .sysHalt).cond = .sysHalt := rfl

/-- In `RUN` the size is remembered. -/
theorem retire_run (h : s.phase = .run) : s.retire sz = { s with lastSize := BitVec.ofNat 2 sz } := if_pos h

/-- After a raise nothing is. -/
theorem retire_of_ne (h : s.phase ≠ .run) : s.retire sz = s := if_neg h

end fields

/-! A host event that acts in `IDLE` only is nothing elsewhere. -/

theorem whileIdle_idle {s : State} (f : State → State) (h : s.phase = .idle) : whileIdle s f = f s := if_pos h

theorem whileIdle_of_ne {s : State} (f : State → State) (h : s.phase ≠ .idle) : whileIdle s f = s := if_neg h

theorem hostApply_loadByte_idle {s : State} (a : Word) (b : Byte) (h : s.phase = .idle) :
    hostApply (.loadByte a b) s = s.storeByte a.toNat b := whileIdle_idle (fun s => s.storeByte a.toNat b) h

theorem hostApply_loadBreak_idle {s : State} (v : Word) (h : s.phase = .idle) :
    hostApply (.loadBreak v) s = { s with brk := v } := whileIdle_idle (fun s => { s with brk := v }) h

theorem hostApply_start_idle {s : State} (h : s.phase = .idle) : hostApply .start s = s.startRun :=
  whileIdle_idle State.startRun h

theorem whileRunning_run {s : State} (f : State → State) (h : s.phase = .run) : whileRunning s f = .next (f s) :=
  if_pos h

theorem whileRunning_of_ne {s : State} (f : State → State) (h : s.phase ≠ .run) : whileRunning s f = .next s :=
  if_neg h

end Sys2Proof.Machine
end

