-- ==== Sys2Proof/Laws/Step.lean ====
section
/-! SUPPORT. What the fetch answers and what a step can do, said once. -/

namespace Sys2Proof.Machine

/-! ### Outside `RUN` -/

theorem step_still {s : State} (h : s.phase ≠ .run) : step s = .next s := by
  unfold step loopStep
  cases hp : s.phase <;> first | rfl | exact absurd hp h

/-! ### The fetch -/

/-- The loop-level check never decides: beyond the break-line the fetch faults anyway (R163). -/
theorem fetchDecode_outside {s : State} (h : s.brk.toNat ≤ s.cursor.toNat) : ∃ c, s.fetchDecode = .error c := by
  unfold State.fetchDecode
  split
  · exact ⟨_, rfl⟩
  · exact ⟨_, decodeInstr_outside _ _ (by simp [codeRead_eq, h])⟩

/-- Inside the code region the fetch is the Decoder at the cursor. -/
theorem fetchDecode_inside {s : State} (h : s.cursor.toNat < s.brk.toNat) :
    s.fetchDecode = decodeInstr s.codeRead s.cursor.toNat := by
  unfold State.fetchDecode
  rw [if_neg (by omega)]

theorem codeRead_inside {s : State} {a : Nat} (h : a < s.brk.toNat) : s.codeRead a = some (s.byteAt a) := by
  rw [codeRead_eq, if_neg (by omega)]

theorem codeRead_some {s : State} {a : Nat} {b : Byte} (h : s.codeRead a = some b) :
    a < s.brk.toNat ∧ s.byteAt a = b := by
  rw [codeRead_eq] at h
  split at h
  · simp at h
  · exact ⟨by omega, by simpa using h⟩

/-- Everything a successful fetch can be: which bytes it read, each below the break-line. -/
theorem fetchDecode_ok {s : State} {i : Instr} {sz : Nat} (h : s.fetchDecode = .ok (i, sz)) :
    (s.cursor.toNat + 3 < s.brk.toNat ∧ s.byteAt s.cursor.toNat = 0x01#8 ∧
      i = .mov (zext16 (s.byteAt (s.cursor.toNat + 1))) (zext16 (s.byteAt (s.cursor.toNat + 3))) ∧ sz = 3) ∨
    (s.cursor.toNat < s.brk.toNat ∧ s.byteAt s.cursor.toNat = 0x02#8 ∧ i = .nop ∧ sz = 1) ∨
    (s.cursor.toNat < s.brk.toNat ∧ s.byteAt s.cursor.toNat = 0x03#8 ∧ i = .hlt ∧ sz = 1) := by
  have hin : s.cursor.toNat < s.brk.toNat := by
    rcases Nat.lt_or_ge s.cursor.toNat s.brk.toNat with hlt | hge
    · exact hlt
    · obtain ⟨c, hc⟩ := fetchDecode_outside hge
      rw [hc] at h
      cases h
  rw [fetchDecode_inside hin] at h
  rcases decodeInstr_ok _ _ h with ⟨b1, b2, h0, h1, h3, hi, hsz⟩ | ⟨h0, hi, hsz⟩ | ⟨h0, hi, hsz⟩
  · obtain ⟨_, e1⟩ := codeRead_some h1
    obtain ⟨l3, e3⟩ := codeRead_some h3
    exact .inl ⟨l3, (codeRead_some h0).2, by rw [e1, e3, hi], hsz⟩
  · exact .inr (.inl ⟨hin, (codeRead_some h0).2, hi, hsz⟩)
  · exact .inr (.inr ⟨hin, (codeRead_some h0).2, hi, hsz⟩)

/-! ### A step in `RUN` -/

theorem step_of_error {s : State} {c : SegvCause} (hr : s.phase = .run) (h : s.advance.fetchDecode = .error c) :
    step s = .next (s.advance.raise .segV) := by
  simp only [step, loopStep, hr, h]

theorem step_of_ok {s : State} {i : Instr} {sz : Nat} (hr : s.phase = .run)
    (h : s.advance.fetchDecode = .ok (i, sz)) : step s = afterExec sz (exec i s.advance) := by
  simp only [step, loopStep, hr, h]

/-- The Executor's three answers in `RUN`. -/
theorem exec_run (i : Instr) {s : State} (hr : s.phase = .run) :
    exec i s = .next (match i with
      | .mov operand1 _ => s.writeReg .acc operand1
      | .nop => s
      | .hlt => s.raise .sysHalt) := by
  cases i <;> simp only [exec, execMov, execNop, execHlt, whileRunning, hr, if_true]

/-- Everything a step can do in `RUN`: fault at the fetch, or execute one of the three instructions. The conditions are
those on the bytes and the break-line alone. -/
theorem step_cases {s t : State} (hr : s.phase = .run) (h : step s = .next t) :
    (t = s.advance.raise .segV) ∨
    (s.fetchAddr + 3 < s.brk.toNat ∧ s.byteAt s.fetchAddr = 0x01#8 ∧
      t = { s.advance with acc := zext16 (s.byteAt (s.fetchAddr + 1)), lastSize := 3 }) ∨
    (s.fetchAddr < s.brk.toNat ∧ s.byteAt s.fetchAddr = 0x02#8 ∧ t = { s.advance with lastSize := 1 }) ∨
    (s.fetchAddr < s.brk.toNat ∧ s.byteAt s.fetchAddr = 0x03#8 ∧ t = s.advance.raise .sysHalt) := by
  have ha : s.advance.phase = .run := hr
  cases hf : s.advance.fetchDecode with
  | error c =>
    rw [step_of_error hr hf] at h
    exact .inl (by simpa using h.symm)
  | ok d =>
    obtain ⟨i, sz⟩ := d
    rw [step_of_ok hr hf, exec_run i ha] at h
    rcases fetchDecode_ok hf with ⟨hl, h0, rfl, rfl⟩ | ⟨hl, h0, rfl, rfl⟩ | ⟨hl, h0, rfl, rfl⟩
    · refine .inr (.inl ⟨hl, h0, ?_⟩)
      simp only [afterExec, Host.Outcome.next.injEq] at h
      rw [← h, retire_run _ _ (by simpa using ha)]
      rfl
    · refine .inr (.inr (.inl ⟨hl, h0, ?_⟩))
      simp only [afterExec, Host.Outcome.next.injEq] at h
      rw [← h, retire_run _ _ ha]
      rfl
    · refine .inr (.inr (.inr ⟨hl, h0, ?_⟩))
      simp only [afterExec, Host.Outcome.next.injEq] at h
      rw [← h, retire_of_ne _ _ (by simp)]

/-! ### What a run reads -/

/-- A step in any phase leaves Memory, the machine creation and the break-line as they are (R54). -/
theorem step_memory {s t : State} (h : step s = .next t) : t.mem = s.mem ∧ t.launch = s.launch ∧ t.brk = s.brk := by
  by_cases hr : s.phase = .run
  · rcases step_cases hr h with rfl | ⟨_, _, rfl⟩ | ⟨_, _, rfl⟩ | ⟨_, _, rfl⟩ <;> exact ⟨rfl, rfl, rfl⟩
  · rw [step_still hr] at h
    cases h
    exact ⟨rfl, rfl, rfl⟩

theorem step_byteAt {s t : State} (h : step s = .next t) (a : Nat) : t.byteAt a = s.byteAt a :=
  byteAt_congr (step_memory h).1 (step_memory h).2.1 a

/-- Nothing is read outside `RUN`. -/
theorem runReads_run {s : State} {a : Nat} (h : RunReads s a) : s.phase = .run := by
  induction h with
  | here h => exact h.1
  | @later s t _ hs _ ih =>
    by_cases hr : s.phase = .run
    · exact hr
    · rw [step_still hr] at hs
      cases hs
      exact ih

/-- What a run reads, its first step reads or the rest of it does. -/
theorem runReads_cases {s t : State} {a : Nat} (hs : step s = .next t) (h : RunReads s a) :
    s.Reads a ∨ RunReads t a := by
  cases h with
  | here h => exact .inl h
  | later hs' h =>
    rw [hs] at hs'
    cases hs'
    exact .inr h

/-- Agreement on what a run reads passes to the states one step on. -/
theorem sameReads_step {s t s' t' : State} (h : SameReads s t) (hs : step s = .next s') (ht : step t = .next t') :
    SameReads s' t' := fun a ha => by
  rw [step_byteAt hs, step_byteAt ht]
  exact h a (.later hs ha)

end Sys2Proof.Machine
end

