-- ==== Sys2Proof/Tests/Slice0.lean ====
section
/-! SUPPORT. Small tests, their expected results taken from spec/95_test_vectors.md or computed by hand from the cited
rules, and for every statement that has hypotheses a witness that meets them. -/

namespace Sys2Proof.Tests
open Sys2Proof.Machine

/-- A running machine with the given bytes from address 0, break-line and loop position. -/
def running (bytes : List Byte) (brk : Word) (cursor : Cursor) (lastSize : Size) : State :=
  { State.reset with
    mem := Memory.storeList [] 0 bytes, brk := brk, cursor := cursor, ip := cursor.setWidth 16
    lastSize := lastSize, phase := .run }

/-- The next state, if the answer is one. -/
def nextOf : Host.Outcome State Fault Refusal → Option State
  | .next s => some s
  | .fault _ => none
  | .refused _ => none

/-! ### Well-formedness -/

/-- R90: a value above `0x00FF` has no encoding, as operand 1. -/
theorem test_wide_operand1_refused : Instr.wf (.mov 0x0100#16 0#16) = false := by decide

/-- The same for operand 2 (R82: range 0..255). -/
theorem test_wide_operand2_refused : Instr.wf (.mov 0#16 0x0100#16) = false := by decide

/-- The largest operands are encodable. -/
theorem test_largest_operands_accepted : Instr.wf (.mov 0x00FF#16 0x00FF#16) = true := by decide

/-! ### Decoding: words written out from R81 and R83, first byte in the low bits -/

/-- `00000001 iiiiiiii rrrrrrrr` with i = `0x2A`, r = `0x99` (T2); the byte that follows is 0. -/
theorem test_decode_mov_word : decodeTableWord 24 0b10011001_00101010_00000001 = some (.mov 0x002A#16 0#16) := by decide

/-- `00000010`. -/
theorem test_decode_nop_word : decodeTableWord 8 0b00000010 = some .nop := by decide

/-- `00000011`. -/
theorem test_decode_hlt_word : decodeTableWord 8 0b00000011 = some .hlt := by decide

/-- The nearest illegal opcodes, `0x00` and `0x04` (T1, V12, V13). -/
theorem test_decode_illegal_words : decodeTableWord 8 0x00 = none ∧ decodeTableWord 8 0x04 = none := by decide

/-- R91: the corrected encoding of a data-move of 5. -/
theorem test_encode_mov : encode (.mov 0x0005#16 0x0002#16) = [0x01#8, 0x05#8, 0x00#8] := by decide

/-! ### One step each -/

/-- V5: largest immediate, non-zero reserved byte. -/
theorem test_mov_largest_immediate :
    (nextOf (step (running [0x01#8, 0xFF#8, 0xAB#8, 0x03#8] 4 0 0))).map (fun t => (t.acc, t.lastSize)) =
      some (0x00FF#16, 3#2) := by decide

/-- V7: the second-operand read at 3 is not below the break-line 3, and `acc` is not written. -/
theorem test_mov_at_end_faults :
    (nextOf (step (running [0x01#8, 0x07#8, 0x00#8] 3 0 0))).map (fun t => (t.phase, t.cond, t.acc, t.ip)) =
      some (.faulted, .segv, 0#16, 0#16) := by decide

/-- R142's example, first step. -/
theorem test_nop_steps :
    (nextOf (step (running [0x02#8, 0x03#8] 2 0 0))).map (fun t => (t.phase, t.ip, t.lastSize)) =
      some (.run, 0#16, 1#2) := by decide

/-- V10, second step: the cursor is exactly the break-line, and the halt there is not executed. -/
theorem test_halt_at_break_line_not_executed :
    (nextOf (step (running [0x02#8, 0x03#8] 1 0 1))).map (fun t => (t.phase, t.ip)) = some (.faulted, 1#16) := by decide

/-- V1c, third step: the halt at 4 after the no-op at 3. -/
theorem test_hlt_keeps_its_address :
    (nextOf (step (running [0x01#8, 0x05#8, 0x00#8, 0x02#8, 0x03#8] 5 3 1))).map
      (fun t => (t.phase, t.cond, t.ip, t.lastSize, t.exitFault)) =
      some (.halted, .sysHalt, 4#16, 1#2, some 0#1) := by decide

/-- V9: an empty code region faults at once. -/
theorem test_hlt_in_empty_code_faults :
    (nextOf (step (running [0x03#8] 0 0 0))).map (fun t => (t.phase, t.ip)) = some (.faulted, 0#16) := by decide

/-- V24: from reset, start with no load, then one step. -/
theorem test_start_without_load_faults :
    (nextOf (step (hostApply .start State.reset))).map (fun t => (t.phase, t.cond, t.ip)) =
      some (.faulted, .segv, 0#16) := by decide

/-- R231: the boot sequence of V2, by host events, then one step. -/
theorem test_boot_and_halt :
    (nextOf (step (hostApply .start (hostApply (.loadBreak 1) (hostApply (.loadByte 0 0x03#8) State.reset))))).map
      (fun t => t.phase) = some .halted := by decide

/-! ### The placed instruction is the next one run, as the first instruction after reset -/

theorem test_placed_mov_runs :
    (nextOf (step (State.reset.withFetchWord 24 0x992A01))).map (fun t => (t.phase, t.acc)) =
      some (.run, 0x002A#16) := by decide

theorem test_placed_nop_runs :
    (nextOf (step (State.reset.withFetchWord 8 0x02))).map (fun t => (t.phase, t.lastSize)) =
      some (.run, 1#2) := by decide

theorem test_placed_hlt_runs :
    (nextOf (step (State.reset.withFetchWord 8 0x03))).map (fun t => t.phase) = some .halted := by decide

/-! ### Witnesses: concrete states and operands that meet the hypotheses of the statements, clause by clause -/

theorem witness_OpcodeTableSizes :
    (0x00#8 ≠ 0x01#8 ∧ 0x00#8 ≠ 0x02#8 ∧ 0x00#8 ≠ 0x03#8) ∧ 0x04#8 ≠ 0x01#8 ∧ 0x04#8 ≠ 0x02#8 ∧ 0x04#8 ≠ 0x03#8 := by
  decide

theorem witness_DecoderFieldsBySize :
    (∃ read : Nat → Option Byte, read 1 = some 0xFF#8 ∧ read 3 = some 0xFF#8) ∧
    (∃ read : Nat → Option Byte, read 1 = none) ∧
    (∃ read : Nat → Option Byte, read 1 = some 0xFF#8 ∧ read 3 = none) ∧ (0 = 0 ∨ 3 < 0) ∧ (4 = 0 ∨ 3 < 4) :=
  ⟨⟨fun _ => some 0xFF#8, rfl, rfl⟩, ⟨fun _ => none, rfl⟩, ⟨fun a => if a = 1 then some 0xFF#8 else none, rfl, rfl⟩,
    by decide, by decide⟩

theorem witness_DecodeOfEncode :
    WellFormed (.mov 0x00FF#16 0x00FF#16) ∧
      ∀ k b, (encodeWith 0xAB#8 (.mov 0x00FF#16 0x00FF#16) ++ lookahead (.mov 0x00FF#16 0x00FF#16))[k]? = some b →
        (fun a => [0x01#8, 0xFF#8, 0xAB#8, 0xFF#8][a]?) (0 + k) = some b :=
  ⟨by decide, fun k b h => by rw [Nat.zero_add]; exact h⟩

theorem witness_DecodedBytesAreItsEncoding :
    decodeInstr (fun a => [0x01#8, 0xFF#8, 0xAB#8, 0xFF#8][a]?) 0 = .ok (.mov 0x00FF#16 0x00FF#16, 3) := by rfl

/-- V6 and V7: the break-line one beyond and exactly at the operand-2 byte. -/
theorem witness_DataMoveLoadsAccumulator :
    (∃ s : State, s.phase = .run ∧ s.byteAt s.fetchAddr = 0x01#8 ∧ s.fetchAddr + 3 < s.brk.toNat) ∧
    (∃ s : State, s.phase = .run ∧ s.byteAt s.fetchAddr = 0x01#8 ∧ s.brk.toNat ≤ s.fetchAddr + 3) :=
  ⟨⟨running [0x01#8, 0x07#8, 0x00#8, 0x03#8] 4 0 0, by decide⟩, ⟨running [0x01#8, 0x07#8, 0x00#8] 3 0 0, by decide⟩⟩

/-- V8 at the last code byte and beyond it; V4 with 3 no-ops and with none. -/
theorem witness_NoOpOnlyMovesOn :
    (∃ s : State, s.phase = .run ∧ s.byteAt s.fetchAddr = 0x02#8 ∧ s.fetchAddr < s.brk.toNat) ∧
    (∃ s : State, s.phase = .run ∧ s.byteAt s.fetchAddr = 0x02#8 ∧ s.brk.toNat ≤ s.fetchAddr) ∧
    (∃ s : State, s.phase = .run ∧ s.fetchAddr + 3 < s.brk.toNat ∧
      (∀ k, k < 3 → s.byteAt (s.fetchAddr + k) = 0x02#8) ∧ s.byteAt (s.fetchAddr + 3) = 0x03#8) ∧
    (∃ s : State, s.phase = .run ∧ s.fetchAddr + 0 < s.brk.toNat ∧
      (∀ k, k < 0 → s.byteAt (s.fetchAddr + k) = 0x02#8) ∧ s.byteAt (s.fetchAddr + 0) = 0x03#8) :=
  ⟨⟨running [0x02#8] 1 0 0, by decide⟩, ⟨running [0x02#8, 0x02#8] 1 0 1, by decide⟩,
    ⟨running [0x02#8, 0x02#8, 0x02#8, 0x03#8] 4 0 0, by decide⟩, ⟨running [0x03#8] 1 0 0, by decide⟩⟩

theorem witness_HaltEndsRun :
    (∃ s : State, s.phase = .run ∧ s.byteAt s.fetchAddr = 0x03#8 ∧ s.fetchAddr < s.brk.toNat) ∧
    (∃ s : State, s.phase = .run ∧ s.byteAt s.fetchAddr = 0x03#8 ∧ s.brk.toNat ≤ s.fetchAddr) :=
  ⟨⟨running [0x03#8] 1 0 0, by decide⟩, ⟨running [0x03#8] 0 0 0, by decide⟩⟩

/-- In `RUN`, where the data-move writes and the halt raises. -/
theorem witness_Frames :
    (∃ t, exec (.mov 0x00FF#16 0#16) (running [] 0 0 0) = .next t ∧ t.acc = 0x00FF#16) ∧
    (∃ t, exec .nop (running [] 0 0 0) = .next t) ∧
    (∃ t, exec .hlt (running [] 0 0 0) = .next t ∧ t.phase = .halted) :=
  ⟨⟨_, rfl, rfl⟩, ⟨_, rfl⟩, ⟨_, rfl, rfl⟩⟩

theorem witness_ExecutorStillOutsideRun : State.reset.phase ≠ .run := by decide

theorem witness_StepRunsDecodedInstruction :
    (running [0x01#8, 0xFF#8, 0xAB#8, 0x03#8] 4 0 0).phase = .run ∧ WellFormed (.mov 0x00FF#16 0x0003#16) ∧
    decodeInstr (running [0x01#8, 0xFF#8, 0xAB#8, 0x03#8] 4 0 0).codeRead
      (running [0x01#8, 0xFF#8, 0xAB#8, 0x03#8] 4 0 0).fetchAddr = .ok (.mov 0x00FF#16 0x0003#16, 3) :=
  ⟨rfl, by decide, rfl⟩

/-- After a data-move (last size 3), on the first step, outside `RUN`. -/
theorem witness_AdvanceComesFirst :
    (running [0x01#8, 0x12#8, 0x00#8, 0x03#8] 4 0 3).Inv ∧
    (∃ t, step (running [0x01#8, 0x12#8, 0x00#8, 0x03#8] 4 0 3) = .next t ∧ t.ip = 3) ∧
    (running [0x03#8] 1 0 0).lastSize = 0 ∧ (∃ t, step (running [0x03#8] 1 0 0) = .next t) ∧
    (∃ t, exec .nop (running [] 0 0 0) = .next t) ∧ (∃ t, step State.reset = .next t) ∧ State.reset.phase ≠ .run :=
  ⟨by constructor <;> decide, ⟨_, rfl, by decide⟩, rfl, ⟨_, rfl⟩, ⟨_, rfl⟩, ⟨_, rfl⟩, by decide⟩

theorem witness_LastSizeRemembered :
    (∃ t, step (running [0x02#8] 1 0 0) = .next t ∧ t.phase = .run) ∧
    (∃ t, step (running [0x01#8, 0x05#8, 0x00#8, 0x03#8] 4 0 0) = .next t ∧ t.phase = .run) ∧
    (∃ t, step (running [0x03#8] 1 0 0) = .next t ∧ t.phase ≠ .run) :=
  ⟨⟨_, rfl, rfl⟩, ⟨_, rfl, rfl⟩, ⟨_, rfl, by decide⟩⟩

/-- The last code byte of the largest code region, and the address above it. -/
theorem witness_CodeReadBound :
    65534 < (running [] 65535 0 0).brk.toNat ∧ (running [] 65535 0 0).brk.toNat ≤ 65535 := by decide

/-- A step by each cause S2 to S5 at its boundary, and a legal one-byte instruction on the last code byte. -/
theorem witness_SegvCausesComplete :
    ((running [0x03#8] 0 0 0).phase = .run ∧ (running [0x03#8] 0 0 0).brk.toNat ≤ (running [0x03#8] 0 0 0).fetchAddr) ∧
    opcodeSize ((running [0xFF#8] 1 0 0).byteAt (running [0xFF#8] 1 0 0).fetchAddr) = 0 ∧
    (∃ s : State, s.phase = .run ∧ opcodeSize (s.byteAt s.fetchAddr) = 3 ∧ s.brk.toNat = s.fetchAddr + 1) ∧
    (∃ s : State, s.phase = .run ∧ opcodeSize (s.byteAt s.fetchAddr) = 3 ∧ s.brk.toNat = s.fetchAddr + 3) ∧
    (∃ s t : State, s.phase = .run ∧ s.fetchAddr < s.brk.toNat ∧
      (s.byteAt s.fetchAddr = 0x02#8 ∨ s.byteAt s.fetchAddr = 0x03#8) ∧ step s = .next t) :=
  ⟨by decide, by decide, ⟨running [0x01#8] 1 0 0, by decide⟩, ⟨running [0x01#8, 0x07#8, 0x00#8] 3 0 0, by decide⟩,
    ⟨running [0x02#8] 1 0 0, _, by decide, by decide, by decide, rfl⟩⟩

/-- V12, V13 and V3: `0x00`, `0x04` and `0xFF`. -/
theorem witness_IllegalOpcodeFaults :
    ∀ op ∈ [0x00#8, 0x04#8, 0xFF#8], (running [op] 1 0 0).phase = .run ∧
      (running [op] 1 0 0).fetchAddr < (running [op] 1 0 0).brk.toNat ∧
      ((running [op] 1 0 0).byteAt (running [op] 1 0 0).fetchAddr = 0x00#8 ∨
        0x04#8 ≤ (running [op] 1 0 0).byteAt (running [op] 1 0 0).fetchAddr) := by decide

theorem witness_FaultIsPrecise :
    (running [0xFF#8] 1 0 0).phase = .run ∧ ∃ t, step (running [0xFF#8] 1 0 0) = .next t ∧ t.phase = .faulted :=
  ⟨rfl, _, rfl, rfl⟩

theorem witness_SystemHaltOnlyByHlt :
    (running [0x03#8] 1 0 0).phase = .run ∧ ∃ t, step (running [0x03#8] 1 0 0) = .next t ∧ t.phase = .halted :=
  ⟨rfl, _, rfl, rfl⟩

/-- V9; V15 and V17. -/
theorem witness_FirstFetchIsChecked :
    ((running [0x03#8] 0 0 0).JustStarted ∧ (running [0x03#8] 0 0 0).brk = 0) ∧
    ((running [0x01#8] 1 0 0).JustStarted ∧ 1 ≤ (running [0x01#8] 1 0 0).brk.toNat ∧
      (running [0x01#8] 1 0 0).brk.toNat ≤ 3 ∧ (running [0x01#8] 1 0 0).byteAt 0 = 0x01#8) ∧
    ((running [0x01#8, 0x05#8, 0x00#8] 3 0 0).JustStarted ∧ (running [0x01#8, 0x05#8, 0x00#8] 3 0 0).brk.toNat = 3 ∧
      (running [0x01#8, 0x05#8, 0x00#8] 3 0 0).byteAt 0 = 0x01#8) :=
  ⟨⟨⟨rfl, rfl, rfl⟩, rfl⟩, ⟨⟨rfl, rfl, rfl⟩, by decide⟩, ⟨rfl, rfl, rfl⟩, by decide⟩

/-- V8's second step, and V21's last one. -/
theorem witness_RunOffEndFaults :
    ((running [0x02#8] 1 0 1).phase = .run ∧ (running [0x02#8] 1 0 1).fetchAddr = (running [0x02#8] 1 0 1).brk.toNat) ∧
    (running [] 65535 65534 1).phase = .run ∧
      (running [] 65535 65534 1).fetchAddr = (running [] 65535 65534 1).brk.toNat := by decide

/-- Two machines that differ in the reserved byte of a data-move only. -/
theorem witness_StepReadsOnlyThreeAddresses :
    ∃ s t : State, s ≠ t ∧ SameButMemory s t ∧ s.phase = .run ∧
      s.byteAt s.fetchAddr = t.byteAt s.fetchAddr ∧ opcodeSize (s.byteAt s.fetchAddr) = 3 ∧
      s.byteAt (s.fetchAddr + 1) = t.byteAt (s.fetchAddr + 1) ∧ s.byteAt (s.fetchAddr + 3) = t.byteAt (s.fetchAddr + 3) :=
  ⟨running [0x01#8, 0x05#8, 0x00#8, 0x03#8] 4 0 0, running [0x01#8, 0x05#8, 0xFF#8, 0x03#8] 4 0 0, by decide, rfl,
    by decide⟩

theorem witness_ReservedByteHasNoEffect : (running [0x01#8, 0x05#8, 0x00#8, 0x03#8] 4 0 0).phase = .run := by decide

/-- V19's shape: the same stream in two machine creations, with a break-line of 100 far beyond it, so with unwritten
bytes below the break-line, and with different reserved bytes. -/
theorem witness_RunsDependOnCodeOnly :
    ∃ s t : State, s.mem ≠ t.mem ∧ s.launch ≠ t.launch ∧ s.brk = 100 ∧ SameButMemory s t ∧ SameReads s t := by
  refine ⟨running [0x01#8, 0x05#8, 0x00#8, 0x03#8] 100 0 0,
    { running [0x01#8, 0x05#8, 0xFF#8, 0x03#8] 100 0 0 with launch := 1 }, by decide, by decide, rfl, rfl, ?_⟩
  have reads0 : ∀ a, (running [0x01#8, 0x05#8, 0x00#8, 0x03#8] 100 0 0).Reads a → a = 0 ∨ a = 1 ∨ a = 3 := by
    rintro a ⟨-, -, h | ⟨h, -⟩ | ⟨h, -⟩⟩
    · exact .inl h
    · exact .inr (.inl h)
    · exact .inr (.inr h)
  have reads1 : ∀ a, State.Reads { running [0x01#8, 0x05#8, 0x00#8, 0x03#8] 100 0 3 with acc := 5 } a → a = 3 := by
    rintro a ⟨-, -, h | ⟨-, h | h⟩ | ⟨-, h⟩⟩
    · exact h
    all_goals exact absurd h (by decide)
  have reads : ∀ a, RunReads (running [0x01#8, 0x05#8, 0x00#8, 0x03#8] 100 0 0) a → a = 0 ∨ a = 1 ∨ a = 3 := by
    intro a h
    rcases runReads_cases (t := { running [0x01#8, 0x05#8, 0x00#8, 0x03#8] 100 0 3 with acc := 5 }) rfl h with h | h
    · exact reads0 a h
    · rcases runReads_cases rfl h with h | h
      · exact .inr (.inr (reads1 a h))
      · exact absurd (runReads_run h) (by decide)
  intro a h
  rcases reads a h with rfl | rfl | rfl <;> decide

theorem witness_CoreWritesOnlyAccAndIp :
    ∃ t, runSteps 2 (running [0x01#8, 0x05#8, 0x00#8, 0x03#8] 4 0 0) = .next t ∧ t.acc = 5 :=
  ⟨_, rfl, by decide⟩

theorem witness_StillOutsideRun : State.reset.phase ≠ .run := by decide

/-- Each of the four phases. -/
theorem witness_PhaseTransitions :
    State.reset.phase = .idle ∧ (running [] 0 0 0).phase = .run ∧
    ((running [] 0 0 0).phase ≠ .idle ∧ HostEvent.start ≠ .reset) ∧
    ((running [] 0 0 0).raise .segV).Terminal ∧ ((running [] 0 0 0).raise .sysHalt).Terminal :=
  ⟨rfl, rfl, by decide, .inr rfl, .inl rfl⟩

theorem witness_EveryRunTerminates :
    (running [0x02#8, 0x03#8] 2 0 0).phase = .run ∧ (running [] 65535 0 0).phase = .run := by decide

/-- A running state that meets the invariant: V1c between its first and second step. -/
theorem witness_invariant :
    State.Inv { running [0x01#8, 0x05#8, 0x00#8, 0x02#8, 0x03#8] 5 0 3 with acc := 5 } := by
  constructor <;> decide

/-- The top of Memory: V21 before its last step. -/
theorem witness_invariant_at_top : (running [] 65535 65534 1).Inv := by
  constructor <;> decide

theorem witness_StepKeepsInvariant :
    ∃ t, step { running [0x01#8, 0x05#8, 0x00#8, 0x02#8, 0x03#8] 5 0 3 with acc := 5 } = .next t ∧ t.ip = 3 :=
  ⟨_, rfl, by decide⟩

theorem witness_CursorAdvanceIsExact :
    (running [] 65535 65534 1).phase = .run ∧ ∃ t, step (running [] 65535 65534 1) = .next t ∧ t.ip = 0xFFFF#16 :=
  ⟨rfl, _, rfl, by decide⟩

theorem witness_HostEventsKeepInvariant : State.reset.Inv := by
  constructor <;> decide

/-- V24: started with nothing loaded, then one step. -/
theorem witness_ReachableMeetsInvariant : ∃ s : State, Reachable s ∧ s.phase = .faulted :=
  ⟨_, .event .step (.event (.host .start) .reset rfl) rfl, rfl⟩

theorem witness_ResetLeavesTable :
    State.reset = State.reset ∧ hostApply .reset (running [0x03#8] 1 0 0) = { State.reset with launch := 1 } := by decide

/-- The first and the last address of Memory, and the one 16-bit address beyond it. -/
theorem witness_HostLoadsByte :
    State.reset.phase = .idle ∧ (0#16).toNat < Config.memSize ∧ (65534#16).toNat < Config.memSize ∧
      (65535#16).toNat = 65535 := by decide

theorem witness_ReadOutPort :
    (State.reset.phase ≠ .run ∧ 6 ≤ 6) ∧ (State.reset.phase = .idle ∧ State.reset.cond = .none) ∧
    (((running [] 0 0 0).raise .sysHalt).phase = .halted ∧ ((running [] 0 0 0).raise .sysHalt).cond = .sysHalt) ∧
    (((running [] 0 0 0).raise .segV).phase = .faulted ∧ ((running [] 0 0 0).raise .segV).cond = .segv) ∧
    (running [] 0 0 0).phase = .run := by decide

theorem witness_DataViewRead : 65534 + 1 ≤ Config.memSize ∧ Config.memSize < 65535 + 1 := by decide

end Sys2Proof.Tests
end

/-! ## Noninterference: what a run does depends on the bytes it reads (R32, R63) -/

namespace Sys2Proof

/-- The operand extraction depends on the byte at `p + 1` for the sizes 2 and 3 and on the byte at `p + 3` for size 3
(R115 to R118). -/
theorem operandFields_congr {read read' : Nat → Option Byte} {p sz : Nat}
    (h1 : sz = 2 ∨ sz = 3 → read (p + 1) = read' (p + 1)) (h3 : sz = 3 → read (p + 3) = read' (p + 3)) :
    operandFields read p sz = operandFields read' p sz := by
  unfold operandFields
  split
  · rfl
  · rw [h1 (.inl rfl)]
  · rw [h1 (.inr rfl), h3 rfl]
  · rfl

/-- `decodeInstr_congr` with the operand bytes asked for only where the size of the opcode read makes the Decoder read
them (R63). -/
theorem decodeInstr_congr_of_size {read read' : Nat → Option Byte} {p : Nat} (h0 : read p = read' p)
    (h1 : ∀ op, read p = some op → opcodeSize op = 2 ∨ opcodeSize op = 3 → read (p + 1) = read' (p + 1))
    (h3 : ∀ op, read p = some op → opcodeSize op = 3 → read (p + 3) = read' (p + 3)) :
    decodeInstr read p = decodeInstr read' p := by
  cases hp : read p with
  | none => rw [decodeInstr_outside read p hp, decodeInstr_outside read' p (h0 ▸ hp)]
  | some op =>
    have hp' : read' p = some op := h0 ▸ hp
    simp only [decodeInstr, decodeAt, hp, hp', operandFields_congr (h1 op hp) (h3 op hp)]

end Sys2Proof

namespace Sys2Proof.Machine

/-- The second machine is the first with another Memory and another machine creation: the form to substitute. -/
theorem SameButMemory.exists_eq {s t : State} (h : SameButMemory s t) : ∃ m l, t = { s with mem := m, launch := l } :=
  ⟨t.mem, t.launch, h.symm⟩

/-! ### Every part of a step keeps two machines the same but for Memory -/

section
variable {s t : State} (h : SameButMemory s t)
include h

theorem SameButMemory.phase_eq : t.phase = s.phase := by
  obtain ⟨m, l, rfl⟩ := h.exists_eq
  rfl

theorem SameButMemory.brk_eq : t.brk = s.brk := by
  obtain ⟨m, l, rfl⟩ := h.exists_eq
  rfl

theorem SameButMemory.nextCursor_eq : t.nextCursor = s.nextCursor := by
  obtain ⟨m, l, rfl⟩ := h.exists_eq
  rfl

theorem SameButMemory.advance : SameButMemory s.advance t.advance := by
  obtain ⟨m, l, rfl⟩ := h.exists_eq
  rfl

theorem SameButMemory.raise (c : Raised) : SameButMemory (s.raise c) (t.raise c) := by
  obtain ⟨m, l, rfl⟩ := h.exists_eq
  cases c <;> rfl

theorem SameButMemory.writeReg (r : Reg) (v : Word) : SameButMemory (s.writeReg r v) (t.writeReg r v) := by
  obtain ⟨m, l, rfl⟩ := h.exists_eq
  cases r <;> rfl

theorem SameButMemory.retire (sz : Nat) : SameButMemory (s.retire sz) (t.retire sz) := by
  by_cases hr : s.phase = .run
  · rw [retire_run s sz hr, retire_run t sz (h.phase_eq.trans hr)]
    obtain ⟨m, l, rfl⟩ := h.exists_eq
    rfl
  · rwa [retire_of_ne s sz hr, retire_of_ne t sz (h.phase_eq.trans_ne hr)]

/-- The Executor reads no Memory: it answers alike whatever Memory holds. -/
theorem SameButMemory.exec (i : Instr) (hr : s.phase = .run) :
    ∃ s' t', Machine.exec i s = .next s' ∧ Machine.exec i t = .next t' ∧ SameButMemory s' t' := by
  refine ⟨_, _, exec_run i hr, exec_run i (h.phase_eq.trans hr), ?_⟩
  cases i with
  | mov operand1 operand2 => exact h.writeReg .acc operand1
  | nop => exact h
  | hlt => exact h.raise .sysHalt

/-- A code read is the same where the byte is, and the byte counts below the break-line only. -/
theorem SameButMemory.codeRead {a : Nat} (hb : a < s.brk.toNat → s.byteAt a = t.byteAt a) :
    s.codeRead a = t.codeRead a := by
  rw [codeRead_eq, codeRead_eq, h.brk_eq]
  split
  · rfl
  · next ha => rw [hb (by omega)]

/-- The fetch of a running machine is the same where the bytes that the step reads are: a byte beyond the break-line is
none of them, and its read fails in both machines. -/
theorem SameButMemory.fetchDecode (hr : s.phase = .run) (hb : ∀ a, s.Reads a → s.byteAt a = t.byteAt a) :
    s.advance.fetchDecode = t.advance.fetchDecode := by
  have h0 : s.advance.codeRead s.fetchAddr = t.advance.codeRead s.fetchAddr :=
    h.advance.codeRead fun ha => hb _ ⟨hr, ha, .inl rfl⟩
  have h1 : ∀ op, s.advance.codeRead s.fetchAddr = some op → opcodeSize op = 2 ∨ opcodeSize op = 3 →
      s.advance.codeRead (s.fetchAddr + 1) = t.advance.codeRead (s.fetchAddr + 1) := by
    intro op hop hsz
    obtain ⟨-, rfl⟩ := codeRead_some hop
    exact h.advance.codeRead fun ha => hb _ ⟨hr, ha, .inr (.inl ⟨rfl, hsz⟩)⟩
  have h3 : ∀ op, s.advance.codeRead s.fetchAddr = some op → opcodeSize op = 3 →
      s.advance.codeRead (s.fetchAddr + 3) = t.advance.codeRead (s.fetchAddr + 3) := by
    intro op hop hsz
    obtain ⟨-, rfl⟩ := codeRead_some hop
    exact h.advance.codeRead fun ha => hb _ ⟨hr, ha, .inr (.inr ⟨rfl, hsz⟩)⟩
  have hdec : decodeInstr s.advance.codeRead s.nextCursor.toNat = decodeInstr t.advance.codeRead s.nextCursor.toNat :=
    decodeInstr_congr_of_size h0 h1 h3
  simp only [State.fetchDecode, advance_brk, advance_cursor, h.brk_eq, h.nextCursor_eq, hdec]

/-- Two machines that are the same but for Memory and agree on the bytes that the step reads step alike (R63). -/
theorem SameButMemory.step (hb : ∀ a, s.Reads a → s.byteAt a = t.byteAt a) :
    ∃ s' t', Machine.step s = .next s' ∧ Machine.step t = .next t' ∧ SameButMemory s' t' := by
  by_cases hr : s.phase = .run
  · have hrt : t.phase = .run := h.phase_eq.trans hr
    have hf := h.fetchDecode hr hb
    cases hd : s.advance.fetchDecode with
    | error c => exact ⟨_, _, step_of_error hr hd, step_of_error hrt (hf ▸ hd), h.advance.raise .segV⟩
    | ok d =>
      obtain ⟨i, sz⟩ := d
      obtain ⟨s', t', hs, ht, hst⟩ := h.advance.exec i hr
      refine ⟨s'.retire sz, t'.retire sz, ?_, ?_, hst.retire sz⟩
      · rw [step_of_ok hr hd, hs, afterExec]
      · rw [step_of_ok hrt (hf ▸ hd), ht, afterExec]
  · exact ⟨s, t, step_still hr, step_still (h.phase_eq.trans_ne hr), h⟩

end

/-- Settles O25, by induction on the number of steps: one step keeps the two machines the same but for Memory
(`SameButMemory.step`), and what they agree on covers what the rest of the run reads (`sameReads_step`). -/
theorem runsDependOnCodeOnly : Obligations.RunsDependOnCodeOnly := by
  intro k
  induction k with
  | zero => exact fun s t h _ => ⟨s, t, rfl, rfl, h⟩
  | succ k ih =>
    intro s t h hreads
    obtain ⟨s₁, t₁, hs, ht, h₁⟩ := h.step fun a ha => hreads a (.here ha)
    obtain ⟨s', t', hs', ht', h'⟩ := ih s₁ t₁ h₁ (sameReads_step hreads hs ht)
    refine ⟨s', t', ?_, ?_, h'⟩
    · rw [runSteps, hs]
      exact hs'
    · rw [runSteps, ht]
      exact ht'

end Sys2Proof.Machine

/-! ## What one step reads (R63) -/

namespace Sys2Proof.Machine

/-- Settles O23: every address that the step reads is one of the three (`State.Reads`), and machines that agree on
those step alike (`SameButMemory.step`). -/
theorem stepReadsOnlyThreeAddresses : Obligations.StepReadsOnlyThreeAddresses := by
  intro s t h _ h0 h1 h3
  have hreads : ∀ a, s.Reads a → s.byteAt a = t.byteAt a := by
    rintro a ⟨-, -, rfl | ⟨rfl, hsz⟩ | ⟨rfl, hsz⟩⟩
    · exact h0
    · exact h1 hsz
    · exact h3 hsz
  exact h.step hreads

end Sys2Proof.Machine

/-! ## The 253 opcode values without an entry (R84) -/

namespace Sys2Proof

/-- The opcode values outside `0x01` to `0x03`, as R84 lists them, are those of no instruction. -/
theorem ne_opcodes_of_zero_or_ge_four {op : Byte} (h : op = 0x00#8 ∨ 0x04#8 ≤ op) :
    op ≠ 0x01#8 ∧ op ≠ 0x02#8 ∧ op ≠ 0x03#8 := by
  rcases h with rfl | hge
  · decide
  · refine ⟨?_, ?_, ?_⟩ <;> rintro rfl <;> exact absurd hge (by decide)

end Sys2Proof

namespace Sys2Proof.Machine

/-- A fetch below the break-line of a byte that is no instruction's opcode fails by its size, cause S3 (R118, R191). -/
theorem fetchDecode_unknown {s : State} (hin : s.cursor.toNat < s.brk.toNat)
    (h1 : s.byteAt s.cursor.toNat ≠ 0x01#8) (h2 : s.byteAt s.cursor.toNat ≠ 0x02#8)
    (h3 : s.byteAt s.cursor.toNat ≠ 0x03#8) : s.fetchDecode = .error .badSize := by
  rw [fetchDecode_inside hin]
  exact decodeInstr_unknown s.codeRead _ (codeRead_inside hin) h1 h2 h3

/-- Settles O18: the byte fetched is no instruction's opcode, so the advanced state's fetch fails
(`fetchDecode_unknown`), and a step whose fetch fails is the advance and the raise alone (`step_of_error`). -/
theorem illegalOpcodeFaults : Obligations.IllegalOpcodeFaults := by
  intro s hrun hin hop
  obtain ⟨h1, h2, h3⟩ := ne_opcodes_of_zero_or_ge_four hop
  have hfetch : s.advance.fetchDecode = .error .badSize := fetchDecode_unknown hin h1 h2 h3
  exact ⟨opcodeSize_unknown h1 h2 h3, step_of_error hrun hfetch⟩

end Sys2Proof.Machine

/-! ## The Opcode Table (R111, R113) -/

namespace Sys2Proof

/-- An opcode with an entry in the table is one of the three (R113): every other byte has size 0. -/
theorem eq_opcode_of_one_le_opcodeSize {op : Byte} (h : 1 ≤ opcodeSize op) :
    op = 0x01#8 ∨ op = 0x02#8 ∨ op = 0x03#8 := by
  by_contra hne
  obtain ⟨h1, h2, h3⟩ : op ≠ 0x01#8 ∧ op ≠ 0x02#8 ∧ op ≠ 0x03#8 := by simpa only [not_or] using hne
  have hzero : opcodeSize op = 0 := opcodeSize_unknown h1 h2 h3
  omega

/-- Settles O1: the three entries are read off the table, and a byte outside it has size 0 (`opcodeSize_unknown`), so
a size of at least 1 names one of the three. -/
theorem opcodeTableSizes : Obligations.OpcodeTableSizes := by
  refine ⟨rfl, rfl, rfl, fun _ => opcodeSize_unknown, fun _ => ⟨eq_opcode_of_one_le_opcodeSize, ?_⟩⟩
  rintro (rfl | rfl | rfl) <;> decide

end Sys2Proof

/-! ## The three instructions as steps (R141, R142, R143) -/

namespace Sys2Proof.Machine

/-! ### What the fetch answers on the bytes of each instruction: the converse of `fetchDecode_ok` -/

section
variable {s : State}

theorem fetchDecode_mov (hin : s.cursor.toNat + 3 < s.brk.toNat) (hop : s.byteAt s.cursor.toNat = 0x01#8) :
    s.fetchDecode =
      .ok (.mov (zext16 (s.byteAt (s.cursor.toNat + 1))) (zext16 (s.byteAt (s.cursor.toNat + 3))), 3) := by
  have h0 : s.codeRead s.cursor.toNat = some 0x01#8 := hop ▸ codeRead_inside (by omega)
  have h1 : s.codeRead (s.cursor.toNat + 1) = some (s.byteAt (s.cursor.toNat + 1)) := codeRead_inside (by omega)
  rw [fetchDecode_inside (by omega), decodeInstr_mov _ _ h0]
  simp only [h1, codeRead_inside hin]

theorem fetchDecode_nop (hin : s.cursor.toNat < s.brk.toNat) (hop : s.byteAt s.cursor.toNat = 0x02#8) :
    s.fetchDecode = .ok (.nop, 1) := by
  rw [fetchDecode_inside hin]
  exact decodeInstr_nop _ _ (hop ▸ codeRead_inside hin)

theorem fetchDecode_hlt (hin : s.cursor.toNat < s.brk.toNat) (hop : s.byteAt s.cursor.toNat = 0x03#8) :
    s.fetchDecode = .ok (.hlt, 1) := by
  rw [fetchDecode_inside hin]
  exact decodeInstr_hlt _ _ (hop ▸ codeRead_inside hin)

end

/-! ### The step on the bytes of each instruction -/

/-- A no-op changes nothing in any phase (R142, R145). -/
theorem exec_nop (s : State) : exec .nop s = .next s := by
  by_cases hr : s.phase = .run
  · exact exec_run .nop hr
  · exact whileRunning_of_ne id hr

/-- Every step is answered by a next state: the type `Fault` is empty and no instruction is refused (R168, R195). -/
theorem step_answers (s : State) : ∃ t, step s = .next t := by
  by_cases hr : s.phase = .run
  · cases hd : s.advance.fetchDecode with
    | error c => exact ⟨_, step_of_error hr hd⟩
    | ok d => exact ⟨_, by rw [step_of_ok hr hd, exec_run (s := s.advance) _ hr, afterExec]⟩
  · exact ⟨s, step_still hr⟩

section
variable {s : State} (hr : s.phase = .run)
include hr

theorem step_mov (hop : s.byteAt s.fetchAddr = 0x01#8) (hin : s.fetchAddr + 3 < s.brk.toNat) :
    step s = .next { s.advance with acc := zext16 (s.byteAt (s.fetchAddr + 1)), lastSize := 3 } := by
  have hf := fetchDecode_mov (s := s.advance) hin hop
  have hrun : (s.advance.writeReg .acc (zext16 (s.byteAt (s.fetchAddr + 1)))).phase = .run := by simpa using hr
  rw [step_of_ok hr hf, exec_run (s := s.advance) _ hr]
  exact congrArg Host.Outcome.next (retire_run _ 3 hrun)

theorem step_nop (hop : s.byteAt s.fetchAddr = 0x02#8) (hin : s.fetchAddr < s.brk.toNat) :
    step s = .next { s.advance with lastSize := 1 } := by
  have hf := fetchDecode_nop (s := s.advance) hin hop
  rw [step_of_ok hr hf, exec_nop]
  exact congrArg Host.Outcome.next (retire_run s.advance 1 hr)

theorem step_hlt (hop : s.byteAt s.fetchAddr = 0x03#8) (hin : s.fetchAddr < s.brk.toNat) :
    step s = .next (s.advance.raise .sysHalt) := by
  have hf := fetchDecode_hlt (s := s.advance) hin hop
  rw [step_of_ok hr hf, exec_run (s := s.advance) .hlt hr, afterExec, retire_of_ne _ _ (by simp)]

/-- Whatever the opcode, a fetch outside the code region faults (R120). -/
theorem step_of_fetch_outside (hout : s.brk.toNat ≤ s.fetchAddr) : step s = .next (s.advance.raise .segV) := by
  obtain ⟨c, hc⟩ := fetchDecode_outside (s := s.advance) hout
  exact step_of_error hr hc

/-- A data-move whose operand-2 byte is not code faults: of all that a step can do, only the fault and a completed
data-move fit its opcode, and the latter needs that byte (R117). -/
theorem step_mov_of_operand_outside (hop : s.byteAt s.fetchAddr = 0x01#8) (hout : s.brk.toNat ≤ s.fetchAddr + 3) :
    step s = .next (s.advance.raise .segV) := by
  obtain ⟨t, ht⟩ := step_answers s
  rcases step_cases hr ht with rfl | ⟨hin, -, -⟩ | ⟨-, hop', -⟩ | ⟨-, hop', -⟩
  · exact ht
  · omega
  · simp [hop] at hop'
  · simp [hop] at hop'

end

/-- Settles O6: the Executor's answer is `exec_run`, a data-move inside the code region steps by `step_mov`, and one
that reaches the break-line is the advance and the raise alone, neither of which writes `acc`. -/
theorem dataMoveLoadsAccumulator : Obligations.DataMoveLoadsAccumulator := by
  refine ⟨?_, fun s hr hop hin => step_mov hr hop hin, ?_⟩
  · intro operand1 operand2 s hr
    exact exec_run (.mov operand1 operand2) hr
  · intro s hr hop hout
    exact ⟨_, step_mov_of_operand_outside hr hop hout, rfl, raise_acc ..⟩

/-! ### Several steps -/

/-- The run goes on from the state that its first step answers. -/
theorem runSteps_succ_of_step {s t : State} (h : step s = .next t) (k : Nat) : runSteps (k + 1) s = runSteps k t := by
  rw [runSteps, h]

/-- Outside `RUN` any number of steps answer the same state (R168, R206). -/
theorem runSteps_still {s : State} (h : s.phase ≠ .run) (k : Nat) : runSteps k s = .next s := by
  induction k with
  | zero => rfl
  | succ k ih => rw [runSteps_succ_of_step (step_still h), ih]

/-- Settles O8: the Executor's answer is `exec_run`, the step is `step_hlt` and its result, being `HALTED`, is still
(`runSteps_still`); outside the code region the fetch faults first (`step_of_fetch_outside`). -/
theorem haltEndsRun : Obligations.HaltEndsRun := by
  refine ⟨fun s hr => exec_run .hlt hr, ?_, ?_⟩
  · intro s hr hop hin
    have hstill : (s.advance.raise .sysHalt).phase ≠ .run := by simp
    exact ⟨s.advance.raise .sysHalt, rfl, step_hlt hr hop hin, rfl, runSteps_still hstill⟩
  · intro s hr _ hout
    exact ⟨_, step_of_fetch_outside hr hout, rfl⟩

/-! ### A run of no-ops up to a halt (R142) -/

@[simp] theorem readReg_raise (s : State) (c : Raised) (r : Reg) : (s.raise c).readReg r = s.readReg r := by
  cases c <;> rfl

/-- The advance writes `ip` and no other register (R162). -/
theorem readReg_advance_ne (s : State) {r : Reg} (h : r ≠ .ip) : s.advance.readReg r = s.readReg r := by
  cases r with
  | ip => exact absurd rfl h
  | _ => rfl

/-- Below the break-line the fetch address fits the 16 bits of `ip` (R22, R25). -/
theorem advance_ip_toNat {s : State} (h : s.fetchAddr < s.brk.toNat) : s.advance.ip.toNat = s.fetchAddr := by
  have := s.brk.isLt
  simp only [State.fetchAddr] at h ⊢
  simp only [advance_ip, BitVec.toNat_setWidth]
  omega

/-- After a no-op below the break-line the next fetch is one byte on: the 17-bit sum does not wrap (R162). -/
theorem fetchAddr_after_nop {s : State} (h : s.fetchAddr < s.brk.toNat) :
    State.fetchAddr { s.advance with lastSize := 1 } = s.fetchAddr + 1 := by
  have := s.brk.isLt
  simp only [State.fetchAddr] at h ⊢
  change (s.nextCursor + 1#17).toNat = s.nextCursor.toNat + 1
  simp only [BitVec.toNat_add, BitVec.toNat_ofNat]
  omega

/-- `n` no-ops and a halt, by induction on `n`: after the first no-op the same bytes lie one further on, and no register
but `ip` has changed. -/
theorem runSteps_nops_halt (n : Nat) {s : State} (hr : s.phase = .run) (hin : s.fetchAddr + n < s.brk.toNat)
    (hnops : ∀ k, k < n → s.byteAt (s.fetchAddr + k) = 0x02#8) (hhlt : s.byteAt (s.fetchAddr + n) = 0x03#8) :
    ∃ t, runSteps (n + 1) s = .next t ∧ t.phase = .halted ∧ t.cond = .sysHalt ∧ t.ip.toNat = s.fetchAddr + n ∧
      ∀ r, r ≠ .ip → t.readReg r = s.readReg r := by
  induction n generalizing s with
  | zero =>
    refine ⟨s.advance.raise .sysHalt, ?_, rfl, rfl, ?_, fun r hne => ?_⟩
    · rw [runSteps_succ_of_step (step_hlt hr hhlt hin), runSteps]
    · rw [raise_ip, advance_ip_toNat hin, Nat.add_zero]
    · rw [readReg_raise, readReg_advance_ne s hne]
  | succ n ih =>
    have hin0 : s.fetchAddr < s.brk.toNat := by omega
    have hstep := step_nop hr (hnops 0 (by omega)) hin0
    have hbyte := step_byteAt hstep
    have hnext : ∀ k, State.fetchAddr { s.advance with lastSize := 1 } + k = s.fetchAddr + (k + 1) := by
      intro k
      rw [fetchAddr_after_nop hin0]
      omega
    obtain ⟨t, hrun, hphase, hcond, hip, hregs⟩ := ih (s := { s.advance with lastSize := 1 }) hr
      (by rw [hnext]; exact hin)
      (fun k hk => by rw [hbyte, hnext]; exact hnops (k + 1) (by omega))
      (by rw [hbyte, hnext]; exact hhlt)
    refine ⟨t, ?_, hphase, hcond, hip.trans (hnext n), fun r hne => (hregs r hne).trans (readReg_advance_ne s hne)⟩
    rw [runSteps_succ_of_step hstep, hrun]

/-- Settles O7: a no-op changes nothing (`exec_nop`), its step only moves on (`step_nop`) or faults at its fetch
(`step_of_fetch_outside`), and a run of no-ops up to a halt is `runSteps_nops_halt`. -/
theorem noOpOnlyMovesOn : Obligations.NoOpOnlyMovesOn := by
  refine ⟨exec_nop, fun s hr hop hin => step_nop hr hop hin, ?_, fun n s hr hin => runSteps_nops_halt n hr hin⟩
  intro s hr _ hout
  exact ⟨_, step_of_fetch_outside hr hout, rfl⟩

end Sys2Proof.Machine

/-! ## The advance and the remembered size (R162, R165) -/

namespace Sys2Proof.Machine

/-! ### Outside `RUN` the Executor does nothing; in `RUN` it moves neither the cursor nor `ip` -/

theorem exec_still (i : Instr) {s : State} (h : s.phase ≠ .run) : exec i s = .next s := by
  cases i with
  | mov operand1 operand2 => exact whileRunning_of_ne (fun s => s.writeReg .acc operand1) h
  | nop => exact whileRunning_of_ne id h
  | hlt => exact whileRunning_of_ne (fun s => s.raise .sysHalt) h

/-- No instruction moves the loop's position (R145, R162). -/
theorem exec_position {i : Instr} {s t : State} (h : exec i s = .next t) : t.cursor = s.cursor ∧ t.ip = s.ip := by
  by_cases hr : s.phase = .run
  · rw [exec_run i hr] at h
    cases h
    cases i with
    | mov operand1 operand2 => exact ⟨writeReg_cursor .., writeAcc_ip ..⟩
    | nop => exact ⟨rfl, rfl⟩
    | hlt => exact ⟨raise_cursor .., raise_ip ..⟩
  · rw [exec_still i hr] at h
    cases h
    exact ⟨rfl, rfl⟩

/-! ### The advance -/

/-- Whatever a step in `RUN` does after its advance, the position stays where the advance put it (R162). -/
theorem step_position {s t : State} (hr : s.phase = .run) (h : step s = .next t) :
    t.cursor = s.nextCursor ∧ t.ip = s.nextCursor.setWidth 16 := by
  rcases step_cases hr h with rfl | ⟨_, _, rfl⟩ | ⟨_, _, rfl⟩ | ⟨_, _, rfl⟩ <;> exact ⟨rfl, rfl⟩

/-- The low 16 bits of the advanced cursor are the 16-bit sum: a carry into bit 16 is lost in both (R162). -/
theorem nextCursor_setWidth_16 (s : State) :
    s.nextCursor.setWidth 16 = s.cursor.setWidth 16 + s.lastSize.setWidth 16 := by
  rw [State.nextCursor, BitVec.setWidth_add _ _ (by decide), BitVec.setWidth_setWidth_of_le _ (by decide)]

theorem nextCursor_of_lastSize_zero {s : State} (h : s.lastSize = 0) : s.nextCursor = s.cursor := by
  simp [State.nextCursor, h]

/-- The advance of a running state that meets the invariant ends within the break-line, so the 17-bit sum is exact
(R170). -/
theorem nextCursor_toNat_of_inv {s : State} (hinv : s.Inv) (hr : s.phase = .run) :
    s.nextCursor.toNat = s.cursor.toNat + s.lastSize.toNat := by
  have hnext := hinv.nextInside hr
  have hbrk := s.brk.isLt
  simp only [State.nextCursor, BitVec.toNat_add, BitVec.toNat_setWidth]
  omega

/-- Settles O13: a step in `RUN` leaves the position that the advance gives it (`step_position`), whose sum is exact
under the invariant (`nextCursor_toNat_of_inv`); no instruction moves it (`exec_position`), and outside `RUN` a step
changes nothing (`step_still`). -/
theorem advanceComesFirst : Obligations.AdvanceComesFirst := by
  refine ⟨fun s t hr h => ?_, fun s t hr hzero h => ?_, fun i s t h => exec_position h, fun s t hne h => ?_⟩
  · obtain ⟨hcursor, hip⟩ := step_position hr h
    refine ⟨hcursor, by rw [hip, hcursor], fun hsync => ?_, fun hinv => ?_⟩
    · rw [hip, nextCursor_setWidth_16, hsync]
    · rw [hcursor, nextCursor_toNat_of_inv hinv hr]
  · rw [(step_position hr h).1, nextCursor_of_lastSize_zero hzero]
  · rw [step_still hne] at h
    cases h
    exact ⟨rfl, rfl⟩

/-! ### The remembered size -/

/-- Settles O14, along what a step can do (`step_cases`): a completed data-move or no-op remembers its size and stays in
`RUN`, while a fault or a halt is the advance and the raise, which keeps the last size (`raise_lastSize`). -/
theorem lastSizeRemembered : Obligations.LastSizeRemembered := by
  intro s t hr h
  rcases step_cases hr h with rfl | ⟨_, hop, rfl⟩ | ⟨_, hop, rfl⟩ | ⟨_, _, rfl⟩
  · exact ⟨fun hrun => by simp at hrun, fun _ => ⟨rfl, rfl⟩⟩
  · rw [hop]
    exact ⟨fun _ => ⟨rfl, .inl ⟨rfl, rfl⟩⟩, fun hne => absurd hr hne⟩
  · rw [hop]
    exact ⟨fun _ => ⟨rfl, .inr ⟨rfl, rfl⟩⟩, fun hne => absurd hr hne⟩
  · exact ⟨fun hrun => by simp at hrun, fun _ => ⟨rfl, rfl⟩⟩

end Sys2Proof.Machine

/-! ## The run state machine (R168) -/

namespace Sys2Proof.Machine

/-! ### The host's events -/

@[simp] theorem storeByte_phase (s : State) (a : Nat) (b : Byte) : (s.storeByte a b).phase = s.phase := by
  unfold State.storeByte
  split <;> rfl

/-- Outside `IDLE` no host event but a reset has an effect (R168, R236). -/
theorem hostApply_of_not_idle {s : State} {e : HostEvent} (hs : s.phase ≠ .idle) (he : e ≠ .reset) :
    hostApply e s = s := by
  cases e with
  | reset => exact absurd rfl he
  | loadByte a b => exact whileIdle_of_ne (fun s => s.storeByte a.toNat b) hs
  | loadBreak v => exact whileIdle_of_ne (fun s => { s with brk := v }) hs
  | start => exact whileIdle_of_ne State.startRun hs

theorem State.Terminal.phase_ne_run {s : State} (h : s.Terminal) : s.phase ≠ .run := by
  rcases h with h | h <;> simp [h]

/-! ### The step in `RUN` -/

/-- Everything a failed fetch can be: the opcode byte outside the code region, an opcode without a size, or a data-move
whose operand-2 byte is outside, since on any other bytes the fetch succeeds. -/
theorem fetchDecode_error {s : State} {c : SegvCause} (h : s.fetchDecode = .error c) :
    s.brk.toNat ≤ s.cursor.toNat ∨ opcodeSize (s.byteAt s.cursor.toNat) = 0 ∨
      s.byteAt s.cursor.toNat = 0x01#8 ∧ s.brk.toNat ≤ s.cursor.toNat + 3 := by
  rcases Nat.lt_or_ge s.cursor.toNat s.brk.toNat with hin | hout
  · rcases Nat.eq_zero_or_pos (opcodeSize (s.byteAt s.cursor.toNat)) with hzero | hpos
    · exact .inr (.inl hzero)
    · rcases eq_opcode_of_one_le_opcodeSize hpos with hop | hop | hop
      · refine .inr (.inr ⟨hop, Nat.le_of_not_lt fun hin3 => ?_⟩)
        simp [fetchDecode_mov hin3 hop] at h
      · simp [fetchDecode_nop hin hop] at h
      · simp [fetchDecode_hlt hin hop] at h
  · exact .inl hout

/-- Settles O28. The host's rows are the laws of `hostApply`; in `RUN` the row is decided by what the advanced state's
fetch answers: it fails on the bytes of `fetchDecode_error`, and the instruction it gives is one of `fetchDecode_ok`,
whose step is `step_mov`, `step_nop` or `step_hlt`. -/
theorem phaseTransitions : Obligations.PhaseTransitions := by
  refine ⟨fun s => ⟨rfl, rfl⟩, fun s hidle => ⟨fun a b => ?_, ?_, hostApply_start_idle hidle⟩, fun s hr => ?_,
    fun s e => hostApply_of_not_idle, fun s hterm => step_still hterm.phase_ne_run⟩
  · rw [hostApply_loadByte_idle a b hidle]
    exact ⟨by rw [storeByte_phase, hidle], byteAt_storeByte_same s b⟩
  · exact fun v => hostApply_loadBreak_idle v hidle
  · cases hd : s.advance.fetchDecode with
    | error c => exact ⟨_, step_of_error hr hd, .inr (.inr ⟨rfl, rfl, fetchDecode_error hd, c, rfl⟩)⟩
    | ok d =>
      obtain ⟨i, sz⟩ := d
      rcases fetchDecode_ok hd with ⟨hin, hop, rfl, rfl⟩ | ⟨hin, hop, rfl, rfl⟩ | ⟨hin, hop, rfl, rfl⟩
      · exact ⟨_, step_mov hr hop hin, .inl ⟨hr, rfl, .inl ⟨hop, hin⟩, _, _, rfl, by simp⟩⟩
      · exact ⟨_, step_nop hr hop hin, .inl ⟨hr, rfl, .inr ⟨hop, hin⟩, _, _, rfl, by simp⟩⟩
      · exact ⟨_, step_hlt hr hop hin, .inr (.inl ⟨rfl, rfl, hop, hin, rfl⟩)⟩

end Sys2Proof.Machine

/-! ## The two conditions and what raises them (R191, R192) -/

namespace Sys2Proof

/-! ### No opcode has a size above 3, and only a data-move one above 1 (R111) -/

theorem opcodeSize_le_three (op : Byte) : opcodeSize op ≤ 3 := by
  unfold opcodeSize
  split_ifs <;> decide

theorem eq_mov_of_two_le_opcodeSize {op : Byte} (h : 2 ≤ opcodeSize op) : op = 0x01#8 := by
  rcases eq_opcode_of_one_le_opcodeSize (Nat.le_of_succ_le h) with hop | rfl | rfl
  · exact hop
  · exact absurd h (by decide)
  · exact absurd h (by decide)

/-- Cause S6 does not occur: the three opcodes with a size have an Executor case, and every other byte fails by its size
before the dispatch (R144). -/
theorem decodeInstr_ne_noExecutorCase (read : Nat → Option Byte) (p : Nat) :
    decodeInstr read p ≠ .error .noExecutorCase := by
  cases hp : read p with
  | none => simp [decodeInstr_outside read p hp]
  | some op =>
    by_cases h1 : op = 0x01#8
    · rw [decodeInstr_mov read p (h1 ▸ hp)]
      cases read (p + 1) with
      | none => simp
      | some b1 => cases read (p + 3) <;> simp
    · by_cases h2 : op = 0x02#8
      · simp [decodeInstr_nop read p (h2 ▸ hp)]
      · by_cases h3 : op = 0x03#8
        · simp [decodeInstr_hlt read p (h3 ▸ hp)]
        · simp [decodeInstr_unknown read p hp h1 h2 h3]

end Sys2Proof

namespace Sys2Proof.Machine

section
variable {s t : State} (hr : s.phase = .run) (h : step s = .next t)
include hr h

/-- A step in `RUN` faults exactly on a fetch outside the code region, on an opcode without a size, and on a data-move
whose operand-2 byte is outside: the bytes of the other two rows of `phaseTransitions` meet none of the three. -/
theorem step_faulted_iff :
    t.phase = .faulted ↔
      s.brk.toNat ≤ s.fetchAddr ∨ opcodeSize (s.byteAt s.fetchAddr) = 0 ∨
        s.byteAt s.fetchAddr = 0x01#8 ∧ s.brk.toNat ≤ s.fetchAddr + 3 := by
  obtain ⟨-, -, hrows, -, -⟩ := phaseTransitions
  obtain ⟨t', ht, hrow⟩ := hrows s hr
  obtain rfl : t = t' := by simpa [h] using ht
  rcases hrow with ⟨hphase, -, ⟨hop, hin⟩ | ⟨hop, hin⟩, -⟩ | ⟨hphase, -, hop, hin, -⟩ | ⟨hphase, -, hcause, -⟩
  · have hfetch : s.fetchAddr < s.brk.toNat := by omega
    simp [hphase, hop, opcodeSize, hfetch, hin]
  · simp [hphase, hop, opcodeSize, hin]
  · simp [hphase, hop, opcodeSize, hin]
  · exact iff_of_true hphase hcause

/-- Of all that a step in `RUN` can do, only the execution of a halt answers a `HALTED` state (R143). -/
theorem step_halted (hhalt : t.phase = .halted) :
    s.fetchAddr < s.brk.toNat ∧ s.byteAt s.fetchAddr = 0x03#8 ∧ t = s.advance.raise .sysHalt := by
  rcases step_cases hr h with rfl | ⟨-, -, rfl⟩ | ⟨-, -, rfl⟩ | hhlt
  · simp at hhalt
  · simp [hr] at hhalt
  · simp [hr] at hhalt
  · exact hhlt

end

/-- Settles O16. Where a step faults is `step_faulted_iff`; S1 to S5 say the same, since an address at the end of Memory
is beyond the break-line, no size exceeds 3 and a size of 2 or 3 is a data-move's. S6 is
`decodeInstr_ne_noExecutorCase`, and the bytes of a no-op or a halt below the break-line meet none of the causes. -/
theorem segvCausesComplete : Obligations.SegvCausesComplete := by
  refine ⟨fun s hr => ⟨?_, fun hcause => ?_⟩, decodeInstr_ne_noExecutorCase, fun s hr hin hop t h hfault => ?_⟩
  · rintro ⟨t, h, hfault⟩
    rcases (step_faulted_iff hr h).mp hfault with hout | hzero | ⟨hmov, hout⟩
    · exact .inr (.inl (.inl hout))
    · exact .inr (.inr (.inl (.inl hzero)))
    · exact .inr (.inr (.inr (.inr ⟨by rw [hmov]; rfl, hout⟩)))
  · obtain ⟨t, h⟩ := step_answers s
    refine ⟨t, h, (step_faulted_iff hr h).mpr ?_⟩
    rcases hcause with hout | (hout | hend) | (hzero | hbig) | ⟨hsize, hout⟩ | ⟨hsize, hout⟩
    · exact .inl hout.le
    · exact .inl hout
    · have hbrk : s.brk.toNat ≤ Config.memSize := Nat.le_of_lt_succ s.brk.isLt
      exact .inl (hbrk.trans hend)
    · exact .inr (.inl hzero)
    · exact absurd (opcodeSize_le_three _) hbig.not_ge
    · exact .inr (.inr ⟨eq_mov_of_two_le_opcodeSize (by omega), by omega⟩)
    · exact .inr (.inr ⟨eq_mov_of_two_le_opcodeSize (by omega), hout⟩)
  · rcases (step_faulted_iff hr h).mp hfault with hout | hzero | ⟨hmov, -⟩
    · omega
    · rcases hop with hop | hop <;> simp [hop, opcodeSize] at hzero
    · rcases hop with hop | hop <;> simp [hop] at hmov

/-- Settles O20: a `HALTED` answer is the advance and the raise of a halt (`step_halted`), which carries the condition
and the exit bit of a success, and the bytes of a halt lead there (`step_hlt`). -/
theorem systemHaltOnlyByHlt : Obligations.SystemHaltOnlyByHlt := by
  refine fun s t hr h => ⟨⟨fun hhalt => ?_, fun ⟨hin, hop⟩ => ?_⟩, fun hhalt => ?_⟩
  · obtain ⟨hin, hop, -⟩ := step_halted hr h hhalt
    exact ⟨hin, hop⟩
  · rw [step_hlt hr hop hin] at h
    cases h
    exact raise_sysHalt_phase s.advance
  · obtain ⟨-, -, rfl⟩ := step_halted hr h hhalt
    exact ⟨rfl, rfl⟩

end Sys2Proof.Machine

/-! ## The Decoder and the encoder (R81, R87, R115 to R118) -/

namespace Sys2Proof

/-- Settles O4: the hypothesis at the offsets 0, 1 and 3 gives the reads that the Decoder makes, and an encodable operand
is the zero extension of the byte that supplies it (`zext16_lowByte`); the reserved byte is not read. -/
theorem decodeOfEncode : Obligations.DecodeOfEncode := by
  intro i reserved read p hwf hread
  cases i with
  | mov operand1 operand2 =>
    obtain ⟨hw1, hw2⟩ := wf_mov.mp hwf
    have h0 : read p = some 0x01#8 := hread 0 _ rfl
    have h1 : read (p + 1) = some (lowByte operand1) := hread 1 _ rfl
    have h3 : read (p + 3) = some (lowByte operand2) := hread 3 _ rfl
    simp only [decodeInstr_mov read p h0, h1, h3, zext16_lowByte hw1, zext16_lowByte hw2]
    rfl
  | nop => exact decodeInstr_nop read p (hread 0 _ rfl)
  | hlt => exact decodeInstr_hlt read p (hread 0 _ rfl)

/-- The encoding of a one-byte instruction lies wherever its opcode byte does. -/
theorem read_of_getElem?_singleton {read : Nat → Option Byte} {p : Nat} {op : Byte} (h0 : read p = some op) (k : Nat)
    (b : Byte) (hb : [op][k]? = some b) : read (p + k) = some b := by
  cases k with
  | zero => exact h0.trans hb
  | succ k => simp at hb

/-- Settles O5: a successful decode is one of the three of `decodeInstr_ok`, each of which names the bytes read; the
offsets of a data-move that the encoding must account for are 0, 1 and 3. -/
theorem decodedBytesAreItsEncoding : Obligations.DecodedBytesAreItsEncoding := by
  intro i sz read p h
  rcases decodeInstr_ok read p h with ⟨b1, b2, h0, h1, h3, rfl, rfl⟩ | ⟨h0, rfl, rfl⟩ | ⟨h0, rfl, rfl⟩
  · refine ⟨wf_mov.mpr ⟨zext16_toNat_lt b1, zext16_toNat_lt b2⟩, rfl, rfl, fun k b hk hb => ?_⟩
    have hbytes : [0x01#8, b1, 0#8, b2][k]? = some b := by
      simpa [encode, encodeWith, lookahead] using hb
    match k with
    | 0 => exact h0.trans hbytes
    | 1 => exact h1.trans hbytes
    | 2 => exact absurd rfl hk
    | 3 => exact h3.trans hbytes
    | k + 4 => simp at hbytes
  · exact ⟨rfl, rfl, rfl, fun k b _ => read_of_getElem?_singleton h0 k b⟩
  · exact ⟨rfl, rfl, rfl, fun k b _ => read_of_getElem?_singleton h0 k b⟩

/-- A size outside 1 to 3 is refused whatever the reads answer (R118). -/
theorem operandFields_badSize (read : Nat → Option Byte) (p : Nat) {sz : Nat} (h : sz = 0 ∨ 3 < sz) :
    operandFields read p sz = .error .badSize := by
  match sz with
  | 0 => rfl
  | 1 | 2 | 3 => omega
  | _ + 4 => rfl

/-- Settles O2, one size arm after the other; what the reads answer decides each. -/
theorem decoderFieldsBySize : Obligations.DecoderFieldsBySize := by
  intro read p
  refine ⟨rfl, fun b1 h1 => ?_, fun b1 b2 h1 h3 => ?_, fun h1 => ⟨?_, ?_⟩, fun b1 h1 h3 => ?_,
    fun sz => operandFields_badSize read p⟩
  · simp only [operandFields, h1, zext16]
  · simp only [operandFields, h1, h3, zext16]
  · simp only [operandFields, h1]
  · simp only [operandFields, h1]
  · simp only [operandFields, h1, h3]

/-- Settles O3: each word by the Decoder's law for its opcode byte; the operand bytes are read off the word. -/
theorem specWordsDecode : Obligations.SpecWordsDecode :=
  ⟨decodeInstr_mov _ 0 rfl, decodeInstr_mov _ 0 rfl, decodeInstr_nop _ 0 rfl, decodeInstr_hlt _ 0 rfl,
    decodeInstr_mov _ 0 rfl, decodeInstr_mov _ 0 rfl,
    decodeInstr_unknown _ 0 (op := 0x00#8) rfl (by decide) (by decide) (by decide),
    decodeInstr_unknown _ 0 (op := 0x04#8) rfl (by decide) (by decide) (by decide), decodeInstr_outside _ 0 rfl⟩

end Sys2Proof

/-! ## The invariant (R170) -/

namespace Sys2Proof.Machine

/-! ### Every step keeps it -/

section
variable {s : State} (hinv : s.Inv) (hr : s.phase = .run)
include hinv hr

/-- The advance ends within the break-line (R170). -/
theorem State.Inv.fetchAddr_le_brk : s.fetchAddr ≤ s.brk.toNat :=
  (nextCursor_toNat_of_inv hinv hr).trans_le (hinv.nextInside hr)

/-- The advance and a raise keep the invariant: the last size stays, so where it is 0 the advance has not moved. -/
theorem State.Inv.advance_raise (c : Raised) : (s.advance.raise c).Inv where
  memCanonical := by simpa using hinv.memCanonical
  ipIsCursor := by simp
  outcomeLegal := by cases c <;> rfl
  cursorInside := by simpa [State.fetchAddr] using hinv.fetchAddr_le_brk hr
  nextInside := fun h => by cases c <;> cases h
  idleAtZero := fun h => by cases c <;> cases h
  noSizeTwo := by simpa using hinv.noSizeTwo
  zeroSizeAtZero := fun h => by
    have hzero : s.lastSize = 0 := by simpa using h
    simpa [nextCursor_of_lastSize_zero hzero] using hinv.zeroSizeAtZero hzero
  accIsByte := by simpa using hinv.accIsByte
  unwritten := by simpa using hinv.unwritten

/-- The advance and an instruction that loads a byte into `acc` and remembers a size, neither 0 nor 2, keep the
invariant, if the bytes of the instruction end within the break-line. -/
theorem State.Inv.advance_complete {a : Word} {sz : Size} (ha : a.toNat < 256) (hzero : sz ≠ 0) (htwo : sz ≠ 2)
    (hin : s.fetchAddr + sz.toNat ≤ s.brk.toNat) : State.Inv { s.advance with acc := a, lastSize := sz } where
  memCanonical := hinv.memCanonical
  ipIsCursor := rfl
  outcomeLegal := hinv.outcomeLegal
  cursorInside := hinv.fetchAddr_le_brk hr
  nextInside := fun _ => hin
  idleAtZero := fun h => absurd (hr.symm.trans h) (by decide)
  noSizeTwo := htwo
  zeroSizeAtZero := fun h => absurd h hzero
  accIsByte := ha
  unwritten := hinv.unwritten

end

/-- Settles O31, along what a step in `RUN` can do (`step_cases`): a fault or a halt is the advance and a raise, a
completed data-move loads a byte and remembers 3, a completed no-op keeps `acc` and remembers 1. -/
theorem stepKeepsInvariant : Obligations.StepKeepsInvariant := by
  intro s t hinv h
  by_cases hr : s.phase = .run
  · rcases step_cases hr h with rfl | ⟨hin, -, rfl⟩ | ⟨hin, -, rfl⟩ | ⟨-, -, rfl⟩
    · exact hinv.advance_raise hr .segV
    · exact hinv.advance_complete hr (zext16_toNat_lt _) (by decide) (by decide) (Nat.le_of_lt hin)
    · exact hinv.advance_complete hr (a := s.acc) hinv.accIsByte (by decide) (by decide) hin
    · exact hinv.advance_raise hr .sysHalt
  · rw [step_still hr] at h
    cases h
    exact hinv

/-! ### Reset and the host's events keep it -/

/-- The reset values meet the invariant in every machine creation (R30). -/
theorem inv_reset (l : Nat) : State.Inv { State.reset with launch := l } where
  memCanonical := rfl
  ipIsCursor := rfl
  outcomeLegal := rfl
  cursorInside := Nat.le_refl 0
  nextInside := fun _ => Nat.le_refl 0
  idleAtZero := fun _ => ⟨rfl, rfl⟩
  noSizeTwo := show (0 : Size) ≠ 2 by decide
  zeroSizeAtZero := fun _ => rfl
  accIsByte := Nat.zero_lt_succ 255
  unwritten := ⟨rfl, rfl, rfl, rfl⟩

/-- Settles O30: the reset of machine creation 0. -/
theorem resetMeetsInvariant : Obligations.ResetMeetsInvariant := inv_reset 0

/-- The load port writes Memory alone (R236). -/
theorem storeByte_eq (s : State) (a : Nat) (b : Byte) :
    s.storeByte a b = { s with mem := (s.storeByte a b).mem } := by
  unfold State.storeByte
  split <;> rfl

section
variable {s : State} (hinv : s.Inv)
include hinv

/-- Any canonical Memory will do. -/
theorem State.Inv.set_mem {m : Memory} (hm : m.wf = true) : State.Inv { s with mem := m } :=
  { hinv with memCanonical := hm }

/-- In `IDLE` the loop stands at address 0, which no break-line is below. -/
theorem State.Inv.set_brk (hidle : s.phase = .idle) (v : Word) : State.Inv { s with brk := v } :=
  { hinv with
    cursorInside := by simp [(hinv.idleAtZero hidle).1]
    nextInside := fun h => absurd (hidle.symm.trans h) (by decide) }

/-- No condition is recorded before the start (R27). -/
theorem State.Inv.cond_of_idle (hidle : s.phase = .idle) : s.cond = .none := by
  have hlegal : legalOutcome .idle s.cond = true := hidle ▸ hinv.outcomeLegal
  cases hc : s.cond with
  | none => rfl
  | sysHalt => simp [hc, legalOutcome] at hlegal
  | segv => simp [hc, legalOutcome] at hlegal

/-- The run begins at address 0, where `ip` already stands, and with no condition recorded. -/
theorem State.Inv.startRun (hidle : s.phase = .idle) : s.startRun.Inv where
  memCanonical := hinv.memCanonical
  ipIsCursor := by simpa [State.startRun, (hinv.idleAtZero hidle).1] using hinv.ipIsCursor
  outcomeLegal := by simp [State.startRun, hinv.cond_of_idle hidle, legalOutcome]
  cursorInside := Nat.zero_le _
  nextInside := fun _ => Nat.zero_le _
  idleAtZero := fun _ => ⟨rfl, rfl⟩
  noSizeTwo := by simp [State.startRun]
  zeroSizeAtZero := fun _ => rfl
  accIsByte := hinv.accIsByte
  unwritten := hinv.unwritten

end

/-- Settles O32: a reset meets the invariant whatever the state (`inv_reset`); a load or a start acts in `IDLE` only,
where the loop stands at address 0. -/
theorem hostEventsKeepInvariant : Obligations.HostEventsKeepInvariant := by
  intro s e hinv
  by_cases hidle : s.phase = .idle
  · cases e with
    | reset => exact inv_reset _
    | loadByte a b =>
      rw [hostApply_loadByte_idle a b hidle, storeByte_eq]
      exact hinv.set_mem (storeByte_wf s a.toNat b hinv.memCanonical)
    | loadBreak v =>
      rw [hostApply_loadBreak_idle v hidle]
      exact hinv.set_brk hidle v
    | start =>
      rw [hostApply_start_idle hidle]
      exact hinv.startRun hidle
  · by_cases he : e = .reset
    · subst he
      exact inv_reset _
    · rwa [hostApply_of_not_idle hidle he]

/-! ### Every reachable state meets it -/

/-- Every event keeps the invariant: a step by `stepKeepsInvariant`, the host's by `hostEventsKeepInvariant`. -/
theorem State.Inv.event {s t : State} (hinv : s.Inv) (e : Event) (h : e.apply s = .next t) : t.Inv := by
  cases e with
  | step => exact stepKeepsInvariant s t hinv h
  | host e =>
    cases h
    exact hostEventsKeepInvariant s e hinv

/-- Every event is answered by a next state, in any state. -/
theorem event_answers (e : Event) (s : State) : ∃ t, e.apply s = .next t := by
  cases e with
  | step => exact step_answers s
  | host e => exact ⟨hostApply e s, rfl⟩

/-- Settles O33, by induction on how the state is reached. -/
theorem reachableMeetsInvariant : Obligations.ReachableMeetsInvariant := by
  intro s hs
  constructor
  · induction hs with
    | reset => exact resetMeetsInvariant
    | event e _ happly ih => exact ih.event e happly
  · intro e
    obtain ⟨t, happly⟩ := event_answers e s
    exact ⟨t, happly, hs.event e happly⟩

/-! ### The advance is exact -/

/-- Under the invariant `ip` and the cursor are the same number, at most 65535: the cursor is within the break-line
(R33, R170). -/
theorem State.Inv.ip_toNat {s : State} (hinv : s.Inv) : s.ip.toNat = s.cursor.toNat ∧ s.cursor.toNat ≤ 65535 := by
  have hin := hinv.cursorInside
  have hbrk := s.brk.isLt
  simp only [hinv.ipIsCursor, BitVec.toNat_setWidth]
  omega

/-- Settles O34: the sum is that of `advanceComesFirst`, and `ip` equals the cursor before and after the step, since both
states meet the invariant (`State.Inv.ip_toNat`, `stepKeepsInvariant`). -/
theorem cursorAdvanceIsExact : Obligations.CursorAdvanceIsExact := by
  intro s t hinv hr h
  obtain ⟨-, -, -, hsum⟩ := advanceComesFirst.1 s t hr h
  obtain ⟨hip, -⟩ := hinv.ip_toNat
  obtain ⟨hip', hmax⟩ := (stepKeepsInvariant s t hinv h).ip_toNat
  exact ⟨hsum hinv, by rw [hip', hip, hsum hinv], hip', hmax⟩

end Sys2Proof.Machine

/-! ## The faults, their order and their precision (R191, R195, R197) -/

namespace Sys2Proof.Machine

/-! ### Which check fails first -/

section
variable {s : State}

/-- At the break-line the loop-level check passes and the opcode byte is the first that cannot be read (R120, R163). -/
theorem fetchDecode_at_brk (h : s.brk.toNat = s.cursor.toNat) : s.fetchDecode = .error .fetchOutside := by
  have h0 : s.codeRead s.cursor.toNat = none := by rw [codeRead_eq, if_pos h.le]
  rw [State.fetchDecode, if_neg (by omega), decodeInstr_outside _ _ h0]

theorem fetchDecode_operand1_outside (hin : s.cursor.toNat < s.brk.toNat) (hop : s.byteAt s.cursor.toNat = 0x01#8)
    (hout : s.brk.toNat ≤ s.cursor.toNat + 1) : s.fetchDecode = .error .operand1Outside := by
  have h1 : s.codeRead (s.cursor.toNat + 1) = none := by rw [codeRead_eq, if_pos hout]
  rw [fetchDecode_inside hin, decodeInstr_mov _ _ (hop ▸ codeRead_inside hin)]
  simp only [h1]

theorem fetchDecode_operand2_outside (hin : s.cursor.toNat + 1 < s.brk.toNat)
    (hop : s.byteAt s.cursor.toNat = 0x01#8) (hout : s.brk.toNat ≤ s.cursor.toNat + 3) :
    s.fetchDecode = .error .operand2Outside := by
  have hin0 : s.cursor.toNat < s.brk.toNat := by omega
  have h3 : s.codeRead (s.cursor.toNat + 3) = none := by rw [codeRead_eq, if_pos hout]
  rw [fetchDecode_inside hin0, decodeInstr_mov _ _ (hop ▸ codeRead_inside hin0)]
  simp only [codeRead_inside hin, h3]

end

/-- Settles O17: along the chain of conditions, each arm is the law of the fetch under the conditions that lead to it. -/
theorem firstFailingCheckIsCause : Obligations.FirstFailingCheckIsCause := by
  intro s
  split_ifs with hbeyond hat hnop hhlt hmov hout1 hout3
  · exact if_pos hbeyond
  · exact fetchDecode_at_brk hat
  · exact fetchDecode_nop (by omega) hnop
  · exact fetchDecode_hlt (by omega) hhlt
  · exact fetchDecode_unknown (by omega) hmov hnop hhlt
  · exact fetchDecode_operand1_outside (by omega) (not_not.mp hmov) hout1
  · exact fetchDecode_operand2_outside (by omega) (not_not.mp hmov) hout3
  · exact fetchDecode_mov (by omega) (not_not.mp hmov)

/-! ### What a fault leaves -/

/-- Settles O19: of all that a step in `RUN` can do (`step_cases`), only the advance and the raise of a segmentation
violation answers a `FAULTED` state. -/
theorem faultIsPrecise : Obligations.FaultIsPrecise := by
  intro s t hr h hfault
  rcases step_cases hr h with rfl | ⟨-, -, rfl⟩ | ⟨-, -, rfl⟩ | ⟨-, -, rfl⟩
  · rfl
  · simp [hr] at hfault
  · simp [hr] at hfault
  · simp at hfault

/-- The first advance after the start adds the last size 0 to the cursor 0 (R161, R162). -/
theorem State.JustStarted.nextCursor_eq {s : State} (hs : s.JustStarted) : s.nextCursor = 0 := by
  obtain ⟨-, hcursor, hzero⟩ := hs
  rw [nextCursor_of_lastSize_zero hzero, hcursor]

theorem State.JustStarted.fetchAddr_eq {s : State} (hs : s.JustStarted) : s.fetchAddr = 0 := by
  rw [State.fetchAddr, hs.nextCursor_eq]
  rfl

/-- So it writes `ip` alone. -/
theorem State.JustStarted.advance_eq {s : State} (hs : s.JustStarted) : s.advance = { s with ip := 0 } := by
  have hip : s.nextCursor.setWidth 16 = 0 := by
    rw [hs.nextCursor_eq]
    rfl
  obtain ⟨-, -, hzero⟩ := hs
  rw [State.advance, hip, nextCursor_of_lastSize_zero hzero]

/-- Settles O21: the first fetch is at address 0, and the fault is that of every other fetch (`step_of_fetch_outside`)
and of every other data-move (`step_mov_of_operand_outside`). -/
theorem firstFetchIsChecked : Obligations.FirstFetchIsChecked := by
  refine ⟨fun s hs hbrk => ?_, fun s hs _ hbrk hop => ?_⟩
  · have hout : s.brk.toNat ≤ s.fetchAddr := by simp [hbrk]
    rw [step_of_fetch_outside hs.1 hout, hs.advance_eq]
    rfl
  · rw [← hs.fetchAddr_eq] at hop
    have hout : s.brk.toNat ≤ s.fetchAddr + 3 := by omega
    rw [step_mov_of_operand_outside hs.1 hop hout, hs.advance_eq]
    rfl

/-- Settles O22: a fetch at the break-line faults (`step_of_fetch_outside`) on the state whose cursor is the
break-line. -/
theorem runOffEndFaults : Obligations.RunOffEndFaults := by
  intro s hr hat
  have hcursor : s.nextCursor = s.brk.setWidth 17 := by
    apply BitVec.eq_of_toNat_eq
    rw [BitVec.toNat_setWidth_of_le (by decide)]
    exact hat
  have hip : s.nextCursor.setWidth 16 = s.brk := by
    rw [hcursor, BitVec.setWidth_setWidth_of_le _ (by decide), BitVec.setWidth_eq]
  rw [step_of_fetch_outside hr hat.ge, State.advance, hip, hcursor]
  rfl

end Sys2Proof.Machine

/-! ## What the core writes, and the reserved byte (R54, R85) -/

namespace Sys2Proof.Machine

/-- Settles O24: none of the three addresses that the step reads is the fetch address plus 2, so the step on the changed
Memory answers the same but for Memory (`SameButMemory.step`), which it leaves as it found it (`step_memory`). -/
theorem reservedByteHasNoEffect : Obligations.ReservedByteHasNoEffect := by
  intro s v _
  have hsame : SameButMemory s { s with mem := s.mem.store (s.fetchAddr + 2) v } := rfl
  have hbytes : ∀ a, s.Reads a → s.byteAt a = State.byteAt { s with mem := s.mem.store (s.fetchAddr + 2) v } a := by
    rintro a ⟨-, -, hread⟩
    have hne : a ≠ s.fetchAddr + 2 := by omega
    simp only [State.byteAt, State.unlistedByte, written_store_ne _ _ hne]
  obtain ⟨t, t', ht, ht', htt'⟩ := hsame.step hbytes
  obtain ⟨-, hlaunch, -⟩ := step_memory ht
  obtain ⟨hmem', hlaunch', -⟩ := step_memory ht'
  have heq : t' = { t with mem := s.mem.store (s.fetchAddr + 2) v } := by
    rw [← htt', hmem', hlaunch', ← hlaunch]
  exact ⟨t, ht, heq ▸ ht'⟩

/-- A step writes no register but `acc` and `ip` (R21). -/
theorem step_readReg {s t : State} (h : step s = .next t) {r : Reg} (hacc : r ≠ .acc) (hip : r ≠ .ip) :
    t.readReg r = s.readReg r := by
  by_cases hr : s.phase = .run
  · rcases step_cases hr h with rfl | ⟨-, -, rfl⟩ | ⟨-, -, rfl⟩ | ⟨-, -, rfl⟩
    · rw [readReg_raise, readReg_advance_ne s hip]
    · exact (readReg_writeReg_ne s.advance _ hacc).trans (readReg_advance_ne s hip)
    · exact readReg_advance_ne s hip
    · rw [readReg_raise, readReg_advance_ne s hip]
  · rw [step_still hr] at h
    cases h
    rfl

/-- Settles O26, by induction on the number of steps: one step leaves all of this as it is (`step_memory`,
`step_readReg`), and the bytes follow (`byteAt_congr`). -/
theorem coreWritesOnlyAccAndIp : Obligations.CoreWritesOnlyAccAndIp := by
  intro k s t h
  induction k generalizing s with
  | zero =>
    cases h
    exact ⟨rfl, fun _ => rfl, rfl, rfl, fun _ _ _ => rfl⟩
  | succ k ih =>
    obtain ⟨s', hs⟩ := step_answers s
    rw [runSteps_succ_of_step hs] at h
    obtain ⟨hmem, hbyte, hbrk, hlaunch, hreg⟩ := ih s' h
    obtain ⟨hmem', hlaunch', hbrk'⟩ := step_memory hs
    exact ⟨hmem.trans hmem', fun a => (hbyte a).trans (step_byteAt hs a), hbrk.trans hbrk', hlaunch.trans hlaunch',
      fun r hacc hip => (hreg r hacc hip).trans (step_readReg hs hacc hip)⟩

end Sys2Proof.Machine

/-! ## Stillness and termination (R168, R170, R203) -/

namespace Sys2Proof.Machine

/-- Settles O27: `runSteps_still`. -/
theorem stillOutsideRun : Obligations.StillOutsideRun := fun k _ h => runSteps_still h k

/-- The two ways a run ends: halted with success, or faulted. -/
def State.Ended (s : State) : Prop :=
  s.phase = .halted ∧ s.cond = .sysHalt ∧ s.exitFault = some 0 ∨
    s.phase = .faulted ∧ s.cond = .segv ∧ s.exitFault = some 1

theorem ended_raise (s : State) (c : Raised) : (s.raise c).Ended := by
  cases c with
  | segV => exact .inr ⟨rfl, rfl, rfl⟩
  | sysHalt => exact .inl ⟨rfl, rfl, rfl⟩

theorem State.Ended.phase_ne_run {s : State} (h : s.Ended) : s.phase ≠ .run := by
  rcases h with ⟨h, -⟩ | ⟨h, -⟩ <;> simp [h]

/-- From an advance that ends below the break-line, the next one adds the size remembered, 1 to 3, without wrap: the
break-line is far below 2^17. -/
theorem fetchAddr_after_advance {s : State} (hin : s.fetchAddr < s.brk.toNat) (a : Word) (sz : Size) :
    State.fetchAddr { s.advance with acc := a, lastSize := sz } = s.fetchAddr + sz.toNat := by
  have hbrk := s.brk.isLt
  have hsz := sz.isLt
  simp only [State.fetchAddr] at hin ⊢
  change (s.nextCursor + sz.setWidth 17).toNat = s.nextCursor.toNat + sz.toNat
  simp only [BitVec.toNat_add, BitVec.toNat_setWidth]
  omega

/-- A step in `RUN` ends the run or fetches next at a higher address with the same break-line, having fetched below it. -/
theorem step_ends_or_moves_on {s t : State} (hr : s.phase = .run) (h : step s = .next t) :
    t.Ended ∨ t.phase = .run ∧ t.brk = s.brk ∧ s.fetchAddr < s.brk.toNat ∧ s.fetchAddr < t.fetchAddr := by
  rcases step_cases hr h with rfl | ⟨hin, -, rfl⟩ | ⟨hin, -, rfl⟩ | ⟨-, -, rfl⟩
  · exact .inl (ended_raise _ _)
  · have hin0 : s.fetchAddr < s.brk.toNat := by omega
    refine .inr ⟨hr, rfl, hin0, ?_⟩
    rw [fetchAddr_after_advance hin0]
    exact Nat.lt_add_of_pos_right (by decide)
  · refine .inr ⟨hr, rfl, hin, ?_⟩
    rw [fetchAddr_after_nop hin]
    exact Nat.lt_succ_self _
  · exact .inl (ended_raise _ _)

/-- By induction on the distance `n` from the fetch address to the break-line: a run ends within `n + 1` steps. -/
theorem runSteps_ends (n : Nat) {s : State} (hr : s.phase = .run) (hn : s.brk.toNat ≤ s.fetchAddr + n) :
    ∃ t, runSteps (n + 1) s = .next t ∧ t.Ended := by
  obtain ⟨t, h⟩ := step_answers s
  rw [runSteps_succ_of_step h]
  rcases step_ends_or_moves_on hr h with hend | ⟨hrt, hbrk, hin, hmove⟩
  · exact ⟨t, runSteps_still hend.phase_ne_run n, hend⟩
  · cases n with
    | zero => omega
    | succ n => exact runSteps_ends n hrt (by rw [hbrk]; omega)

/-- Settles O29: the distance to the break-line is at most the break-line itself (`runSteps_ends`). -/
theorem everyRunTerminates : Obligations.EveryRunTerminates :=
  fun s hr => runSteps_ends s.brk.toNat hr (Nat.le_add_left _ _)

end Sys2Proof.Machine

/-! ## The frames of the Executor, and the step around it (R141 to R145, R164 to R166) -/

namespace Sys2Proof.Machine

/-- Settles O11: `exec_still`. -/
theorem executorStillOutsideRun : Obligations.ExecutorStillOutsideRun := fun i _ h => exec_still i h

/-- Settles O9: a no-op answers the same state (`exec_nop`), and a data-move in `RUN` writes `acc` and nothing else
(`readReg_writeReg_ne`); the halt is excluded. -/
theorem dataMoveAndNoOpFrame : Obligations.DataMoveAndNoOpFrame := by
  intro i s t hne h
  cases i with
  | mov operand1 operand2 =>
    by_cases hr : s.phase = .run
    · rw [exec_run _ hr] at h
      cases h
      exact ⟨fun r => readReg_writeReg_ne s operand1, nofun, fun _ => rfl, rfl, rfl, rfl, rfl, rfl, rfl⟩
    · rw [exec_still _ hr] at h
      cases h
      exact ⟨fun _ _ => rfl, nofun, fun _ => rfl, rfl, rfl, rfl, rfl, rfl, rfl⟩
  | nop =>
    rw [exec_nop] at h
    cases h
    exact ⟨fun _ _ => rfl, fun _ => rfl, fun _ => rfl, rfl, rfl, rfl, rfl, rfl, rfl⟩
  | hlt => exact absurd rfl hne

/-- Settles O10: the halt answers a raise (`exec_run`), which writes the phase and the condition only. -/
theorem haltFrame : Obligations.HaltFrame := by
  intro s t h
  by_cases hr : s.phase = .run
  · rw [exec_run .hlt hr] at h
    cases h
    exact ⟨readReg_raise s .sysHalt, fun _ => rfl, rfl, rfl, rfl, rfl⟩
  · rw [exec_still .hlt hr] at h
    cases h
    exact ⟨fun _ => rfl, fun _ => rfl, rfl, rfl, rfl, rfl⟩

/-- What decodes at an address was read there, so the address lies below the break-line (R120). -/
theorem lt_brk_of_decodeInstr_ok {s : State} {p : Nat} {d : Instr × Nat}
    (h : decodeInstr s.codeRead p = .ok d) : p < s.brk.toNat := by
  by_contra hout
  have h0 : s.codeRead p = none := by rw [codeRead_eq, if_pos (by omega)]
  simp [decodeInstr_outside _ _ h0] at h

/-- Settles O12: the advance changes no byte and not the break-line, so the advanced state's fetch is the decode given;
the step is then the Executor on that state (`step_of_ok`) and the remembering of the size. -/
theorem stepRunsDecodedInstruction : Obligations.StepRunsDecodedInstruction := by
  intro s i sz hr _ hdecode
  have hin : s.advance.cursor.toNat < s.advance.brk.toNat := lt_brk_of_decodeInstr_ok hdecode
  have hfetch : s.advance.fetchDecode = .ok (i, sz) := (fetchDecode_inside hin).trans hdecode
  have hexec := exec_run (s := s.advance) i hr
  exact ⟨_, hexec, by rw [step_of_ok hr hfetch, hexec]; rfl⟩

end Sys2Proof.Machine

/-! ## The two views of Memory (R52, R53) -/

namespace Sys2Proof.Machine

/-- Settles O15: the break-line alone bounds a code read (`codeRead_eq`), and it is at most the end of Memory. -/
theorem codeReadBound : Obligations.CodeReadBound := by
  intro s a
  refine ⟨fun hin => ⟨codeRead_inside hin, ?_⟩, fun hout => by rw [codeRead_eq, if_pos hout]⟩
  have hbrk : s.brk.toNat ≤ Config.memSize := Nat.le_of_lt_succ s.brk.isLt
  exact hin.trans_le hbrk

/-- Settles O39: the two sides of the one bound of `State.memRead`, and the bytes of the list it answers. -/
theorem dataViewRead : Obligations.DataViewRead := by
  intro s a n
  refine ⟨fun hout => if_neg (Nat.not_le_of_lt hout), fun hin => ⟨_, if_pos hin, by simp, fun k hk => ?_⟩⟩
  simp [hk]

end Sys2Proof.Machine

/-! ## Reset, the load port and the read-out port (R30, R203, R236) -/

namespace Sys2Proof.Machine

/-- Settles O35: the two states, power-on and after a reset, differ at most in the machine creation. -/
theorem resetLeavesTable : Obligations.ResetLeavesTable := by
  intro s r h
  obtain ⟨l, rfl⟩ : ∃ l, r = { State.reset with launch := l } := by
    rcases h with rfl | rfl
    · exact ⟨0, rfl⟩
    · exact ⟨s.launch + 1, rfl⟩
  exact ⟨fun q => by cases q <;> rfl, rfl, rfl, rfl, rfl, rfl, fun _ => rfl⟩

/-- A store at an address beyond Memory does nothing (R24, R236). -/
theorem storeByte_outside (s : State) {a : Nat} (b : Byte) (h : Config.memSize ≤ a) : s.storeByte a b = s :=
  if_neg (Nat.not_lt_of_le h)

/-- Settles O36: in `IDLE` a load is `State.storeByte`, whose laws are the four clauses. -/
theorem hostLoadsByte : Obligations.HostLoadsByte := by
  intro s a b hidle
  rw [hostApply_loadByte_idle a b hidle]
  refine ⟨byteAt_storeByte_same s b, fun hend => storeByte_outside s b hend.ge, fun c => byteAt_storeByte_ne s b, ?_⟩
  rw [storeByte_eq]

section
variable {s : State}

theorem hostReadReg_of_ne (h : s.phase ≠ .run) (n : Nat) : s.hostReadReg n = (Reg.ofIndex n).map s.readReg := if_neg h

theorem hostReadOutcome_of_ne (h : s.phase ≠ .run) :
    s.hostReadOutcome = some (s.phase.code, s.cond.code, s.exitFault) := if_neg h

end

/-- No number above 5 names a register (decision D13 of the spec). -/
theorem ofIndex_eq_none {n : Nat} (h : 6 ≤ n) : Reg.ofIndex n = none := by
  match n with
  | 0 | 1 | 2 | 3 | 4 | 5 => omega
  | _ + 6 => rfl

/-- Settles O37: outside `RUN` the port answers the register of the number (`hostReadReg_of_ne`) and the codes of the
outcome (`hostReadOutcome_of_ne`). -/
theorem readOutPort : Obligations.ReadOutPort := by
  intro s
  refine ⟨fun hne => ?_, fun hp hc => ?_, fun hp hc => ?_, fun hp hc => ?_, fun hr => ⟨if_pos hr, fun _ => if_pos hr⟩⟩
  · have hread := hostReadReg_of_ne hne
    exact ⟨hread 0, hread 1, hread 2, hread 3, hread 4, hread 5, fun n hn => by rw [hread n, ofIndex_eq_none hn]; rfl⟩
  all_goals
    rw [hostReadOutcome_of_ne (by simp [hp])]
    simp [State.exitFault, hp, hc, Phase.code, Cond.code]

/-- Settles O38, phase by phase. -/
theorem exitStatus : Obligations.ExitStatus := by
  intro s
  cases hp : s.phase with
  | idle => simp [State.exitFault, State.Terminal, hp]
  | run => simp [State.exitFault, State.Terminal, hp]
  | halted => simp [State.exitFault, State.Terminal, hp]
  | faulted => simp [State.exitFault, State.Terminal, hp]

end Sys2Proof.Machine
